-- ==== Sys2Proof/Word.lean ====
section
/-! DEFINITION. The fixed-width words of the Emul ISA: the instruction word and its fields (30_encoding.md R71),
the program counter (10_state.md R24). A register or a data cell is a `BitVec xlen`, XLEN being a construction
parameter (00_scope.md R5); its arithmetic stands in Machine/Operands.lean. -/

namespace Sys2Proof

/-- One instruction-memory word: "Every instruction is exactly one 32-bit word" (30_encoding.md R70). -/
abbrev InstrWord := BitVec 32

/-- The 4-bit `opcode` field (R71). -/
abbrev Opcode := BitVec 4

/-- A 3-bit register select, the shape of the fields `dst`, `src1`, `src2` (R71).
It can name 0 to 7; only 0 to 4 exist (10_state.md R22). -/
abbrev RegSel := BitVec 3

/-- The 19-bit `imm` field, an unsigned number (R74). -/
abbrev Imm := BitVec 19

/-- The program counter's PCW = 20 bits (10_state.md R24). -/
abbrev PcWord := BitVec 20

/-- The index of one of the five general registers: index k is Rk (10_state.md R21). -/
abbrev RegIdx := Fin 5

end Sys2Proof
end

