-- ==== Sys2Proof/Syntax.lean ====
section
/-! DEFINITION. The abstract syntax of the nine instructions: one constructor per row of spec/opcode_table.json,
holding exactly the fields the opcode's operand shape uses (30_encoding.md R75). Register operands are the 3-bit
selects of the word, so that a select of 5, 6 or 7 is an instruction that faults when executed (R78), not one that
cannot be written. -/

namespace Sys2Proof

/-- The complete instruction set (00_scope.md R2). Argument names are the field names of R71. -/
inductive Instr where
  /-- opcode 0, `LOAD Rd Ra`: `dst` is written, `src1` holds the address. -/
  | load (dst src1 : RegSel)
  /-- opcode 1, `STORE Rs addr`: the field `dst` names the register whose value is stored. -/
  | store (dst : RegSel) (imm : Imm)
  /-- opcode 2, `ADD Rd Ra Rb`. -/
  | add (dst src1 src2 : RegSel)
  /-- opcode 3, `JUMP_IF addr`. -/
  | jumpIf (imm : Imm)
  /-- opcode 4, `JUMP addr`. -/
  | jump (imm : Imm)
  /-- opcode 5, `TERMINATE`. -/
  | terminate
  /-- opcode 6, `CMP Ra Rb`: `dst` is the first operand, `src1` the second, both only read. -/
  | cmp (dst src1 : RegSel)
  /-- opcode 7, `INC Rd`. -/
  | inc (dst : RegSel)
  /-- opcode 8, `MOVE Rd lit`. -/
  | move (dst : RegSel) (imm : Imm)
deriving DecidableEq, Repr

end Sys2Proof
end

