-- ==== Sys2Proof/WellFormed.lean ====
section
/-! DEFINITION. Which instructions are legal: every register field the opcode uses names one of R0 to R4
(30_encoding.md R78). The immediate's bound 0 ≤ imm < 2^19 (R74) is in its type. -/

namespace Sys2Proof

/-- A register select that names an existing register (10_state.md R22). -/
def RegSel.valid (r : RegSel) : Bool := r.toNat ≤ 4

namespace Instr

/-- The register fields the opcode uses, in the order `dst`, `src1`, `src2` in which they are checked
(R78, "The fields checked are"; 10_state.md R31 step 4). -/
def regFields : Instr → List RegSel
  | .load dst src1 => [dst, src1]
  | .store dst _ => [dst]
  | .add dst src1 src2 => [dst, src1, src2]
  | .jumpIf _ => []
  | .jump _ => []
  | .terminate => []
  | .cmp dst src1 => [dst, src1]
  | .inc dst => [dst]
  | .move dst _ => [dst]

/-- A well-formed instruction: all its used register fields are at most 4. -/
def wf (i : Instr) : Bool := i.regFields.all RegSel.valid

/-- The register fields an instruction reads (10_state.md R23, column "Registers read"). -/
def regsRead : Instr → List RegSel
  | .load _ src1 => [src1]
  | .store dst _ => [dst]
  | .add _ src1 src2 => [src1, src2]
  | .jumpIf _ => []
  | .jump _ => []
  | .terminate => []
  | .cmp dst src1 => [dst, src1]
  | .inc dst => [dst]
  | .move _ _ => []

/-- The register field an instruction writes (10_state.md R23, column "Register written"). -/
def regWritten : Instr → Option RegSel
  | .load dst _ => some dst
  | .store _ _ => none
  | .add dst _ _ => some dst
  | .jumpIf _ => none
  | .jump _ => none
  | .terminate => none
  | .cmp _ _ => none
  | .inc dst => some dst
  | .move dst _ => some dst

end Instr

end Sys2Proof
end

