-- ==== Sys2Proof/Decode.lean ====
section
/-! DEFINITION. The instruction decoder and, after it, the encoder (30_encoding.md sections 1 to 6;
the decoder block of 10_state.md R36). -/

namespace Sys2Proof

/-- The unsigned bit field of `width` bits whose lowest bit is bit `lo`: `w[hi:lo] = (w >> lo) mod 2^(hi-lo+1)`
(00_scope.md R6). -/
def bitField (w : InstrWord) (lo width : Nat) : BitVec width := BitVec.ofNat width (w.toNat / 2 ^ lo)

/-- The five fields of an instruction word (30_encoding.md R71). -/
structure Fields where
  opcode : Opcode
  dst : RegSel
  src1 : RegSel
  src2 : RegSel
  imm : Imm
deriving DecidableEq, Repr

/-- `Decode` of R73: field extraction, total on all words. -/
def Fields.ofWord (w : InstrWord) : Fields where
  opcode := bitField w 28 4
  dst := bitField w 25 3
  src1 := bitField w 22 3
  src2 := bitField w 19 3
  imm := bitField w 0 19

/-- Which fields an opcode uses (30_encoding.md R75): the outputs `use_dst`, `use_src1`, `use_src2`, `use_imm` of
the decoder block (10_state.md R36). -/
structure Shape where
  useDst : Bool
  useSrc1 : Bool
  useSrc2 : Bool
  useImm : Bool
deriving DecidableEq, Repr

/-- The operand shapes of R75; "all 0 when `op_valid = 0`" (R36). -/
def shapeOf (op : Opcode) : Shape :=
  match op.toNat with
  | 0 => ⟨true, true, false, false⟩
  | 1 => ⟨true, false, false, true⟩
  | 2 => ⟨true, true, true, false⟩
  | 3 => ⟨false, false, false, true⟩
  | 4 => ⟨false, false, false, true⟩
  | 5 => ⟨false, false, false, false⟩
  | 6 => ⟨true, true, false, false⟩
  | 7 => ⟨true, false, false, false⟩
  | 8 => ⟨true, false, false, true⟩
  | _ => ⟨false, false, false, false⟩

/-- The decoder block's outputs (10_state.md R36). -/
structure DecoderOut where
  fields : Fields
  opValid : Bool
  shape : Shape
  regValid : Bool
  illegal : Bool
deriving DecidableEq, Repr

/-- `op_valid = (opcode ≤ 8)` (R36). -/
def Fields.opValid (f : Fields) : Bool := f.opcode.toNat ≤ 8

/-- `reg_valid` of R36: every used register field is at most 4. -/
def Fields.regValid (f : Fields) : Bool :=
  (!(shapeOf f.opcode).useDst || f.dst.valid) && (!(shapeOf f.opcode).useSrc1 || f.src1.valid) &&
    (!(shapeOf f.opcode).useSrc2 || f.src2.valid)

/-- The decoder block: a total function of `instr` with no state (R36). -/
def decoderBlock (w : InstrWord) : DecoderOut where
  fields := Fields.ofWord w
  opValid := (Fields.ofWord w).opValid
  shape := shapeOf (Fields.ofWord w).opcode
  regValid := (Fields.ofWord w).regValid
  illegal := !(Fields.ofWord w).opValid || !(Fields.ofWord w).regValid

/-- Why a word names no instruction. Register fields are checked when the instruction executes (R78, R31 step 4). -/
inductive DecodeError where
  /-- "Opcode values 9, 10, 11, 12, 13, 14 and 15 name no instruction" (R77). -/
  | undefinedOpcode (op : Opcode)
deriving DecidableEq, Repr

/-- The instruction that extracted fields name: the opcode alone selects it (R76), the fields it does not use are
dropped (R79). -/
def Fields.toInstr (f : Fields) : Except DecodeError Instr :=
  match f.opcode.toNat with
  | 0 => .ok (.load f.dst f.src1)
  | 1 => .ok (.store f.dst f.imm)
  | 2 => .ok (.add f.dst f.src1 f.src2)
  | 3 => .ok (.jumpIf f.imm)
  | 4 => .ok (.jump f.imm)
  | 5 => .ok .terminate
  | 6 => .ok (.cmp f.dst f.src1)
  | 7 => .ok (.inc f.dst)
  | 8 => .ok (.move f.dst f.imm)
  | _ => .error (.undefinedOpcode f.opcode)

/-- The decoder: total on all 32-bit words, rejecting the opcodes 9 to 15 by name. -/
def decode (w : InstrWord) : Except DecodeError Instr := (Fields.ofWord w).toInstr

/-- `Encode` of R81: `opcode * 2^28 + dst * 2^25 + src1 * 2^22 + src2 * 2^19 + imm`. -/
def Fields.encode (f : Fields) : InstrWord :=
  BitVec.ofNat 32 (f.opcode.toNat * 2 ^ 28 + f.dst.toNat * 2 ^ 25 + f.src1.toNat * 2 ^ 22 + f.src2.toNat * 2 ^ 19
    + f.imm.toNat)

/-- An instruction's fields: its operands in the slots of R75, 0 in every field it does not use (R81, R82). -/
def Instr.fields : Instr → Fields
  | .load dst src1 => ⟨0, dst, src1, 0, 0⟩
  | .store dst imm => ⟨1, dst, 0, 0, imm⟩
  | .add dst src1 src2 => ⟨2, dst, src1, src2, 0⟩
  | .jumpIf imm => ⟨3, 0, 0, 0, imm⟩
  | .jump imm => ⟨4, 0, 0, 0, imm⟩
  | .terminate => ⟨5, 0, 0, 0, 0⟩
  | .cmp dst src1 => ⟨6, dst, src1, 0, 0⟩
  | .inc dst => ⟨7, dst, 0, 0, 0⟩
  | .move dst imm => ⟨8, dst, 0, 0, imm⟩

/-- The encoder: the canonical word of an instruction (R82). Every instruction is one word (R70). -/
def encode (i : Instr) : InstrWord := i.fields.encode

/-- The mask of every row of the opcode map (R76). -/
def opcodeMask : InstrWord := 0xF0000000

/-- The `match` column of the opcode map (R76). -/
def Instr.matchWord : Instr → InstrWord
  | .load _ _ => 0x00000000
  | .store _ _ => 0x10000000
  | .add _ _ _ => 0x20000000
  | .jumpIf _ => 0x30000000
  | .jump _ => 0x40000000
  | .terminate => 0x50000000
  | .cmp _ _ => 0x60000000
  | .inc _ => 0x70000000
  | .move _ _ => 0x80000000

/-- A canonical word: one whose unused fields are all zero, of a defined opcode (R82, 00_scope.md R10). -/
def Fields.canonical (f : Fields) : Bool :=
  f.opValid && ((shapeOf f.opcode).useDst || f.dst == 0) && ((shapeOf f.opcode).useSrc1 || f.src1 == 0) &&
    ((shapeOf f.opcode).useSrc2 || f.src2 == 0) && ((shapeOf f.opcode).useImm || f.imm == 0)

/-- The instruction this decoder reads from a word whose bits are `w`, numbered as spec/opcode_table.json numbers
them; bits at and above `nbits` are 0. -/
def decodeTableWord (nbits w : Nat) : Option Instr := (decode (BitVec.ofNat 32 (w % 2 ^ nbits))).toOption

end Sys2Proof
end

