-- ==== Sys2Proof/Config.lean ====
section
/-! DEFINITION. What is fixed when an engine is constructed (00_scope.md R5, 92_eei_decisions.md, parameter table). -/

namespace Sys2Proof

/-- The three named parameters of R5, with their defaults. -/
structure Params where
  /-- `XLEN`: bits of a register and of a data cell (D1). -/
  xlen : Nat := 32
  /-- `IMEM_WORDS`: capacity of instruction memory in words (D6). -/
  imemWords : Nat := 2048
  /-- `DMEM_WORDS`: capacity of data memory in cells (D6). -/
  dmemWords : Nat := 2048
deriving DecidableEq, Repr

namespace Params

/-- "default engine": XLEN = 32, both capacities 2048. -/
def standard : Params := {}

/-- The stated bounds of R5: XLEN ≥ 20, IMEM_WORDS in 1 … 2^19, DMEM_WORDS in 1 … 2^(XLEN-1).
Anything else is refused at construction (93_implementation_defined.md V14). -/
abbrev Admissible (p : Params) : Prop :=
  20 ≤ p.xlen ∧ 1 ≤ p.imemWords ∧ p.imemWords ≤ 2 ^ 19 ∧ 1 ≤ p.dmemWords ∧ p.dmemWords ≤ 2 ^ (p.xlen - 1)

end Params

/-- `HOST_WORD_SERIALISATION`: how a host lays a word out in bytes outside the machine.
Left OPEN by 20_memory.md R55 and D24; "no rule depends on it", and nothing in this model reads it (log 6). -/
opaque Config.hostWordSerialisation : InstrWord → List (BitVec 8)

end Sys2Proof
end

