-- ==== Sys2Proof/Machine/State.lean ====
section
/-! DEFINITION. The architectural state of one engine (10_state.md R20), the reasons a step can stop, and reset. -/

namespace Sys2Proof.Machine

/-- The comparison flag, "a tri-state value {greater, equal, less}" (10_state.md R27). -/
inductive Flag where
  | greater
  | equal
  | less
deriving DecidableEq, Repr

/-- The run status latch (10_state.md R29). -/
inductive RunStatus where
  | running
  | halted
  | faulted
deriving DecidableEq, Repr

/-- The contents of the `fault_cause` latch (60_exceptions.md R161); the codes 5 to 7 are "never written". -/
inductive FaultCause where
  | none
  | invalidOpcodeOp
  | invalidOpcodeReg
  | fetchFault
  | dataAddressFault
deriving DecidableEq, Repr

/-- A fault as a step raises it, with the offending value (00_scope.md R8, `raise E(info)`; 60_exceptions.md R161).
Only its cause is latched; the value "can be found afterwards" in the unchanged state. -/
inductive StepFault where
  /-- The fetched word has an opcode of 9 to 15 (R162). -/
  | invalidOpcodeOp (op : Opcode)
  /-- A used register field holds 5, 6 or 7 (R162). -/
  | invalidOpcodeReg
  /-- `pc ≥ IMEM_WORDS` at fetch (R163). -/
  | fetchFault (pc : Nat)
  /-- A data address outside 0 … DMEM_WORDS-1 (R164). -/
  | dataAddressFault (a : Int)
deriving DecidableEq, Repr

/-- A memory of `w`-bit entries addressed by index: the entries that are not 0, addresses strictly rising
(`Memory.wf`). An unlisted address reads as 0, the reset contents of both memories (10_state.md R33, R40). -/
abbrev Memory (w : Nat) := List (Nat × BitVec w)

/-- Why a step of the machine stops instead of answering a next state. Both reasons are SAFE: the spec says that
such a state "has no step" (00_scope.md R9). A fault of the running program is no reason to stop: it is the next
state that 60_exceptions.md R165 describes. -/
inductive Fault where
  /-- Raised by `step` when `status = halted`. Safe: a halted engine has no further step. -/
  | engineHalted
  /-- Raised by `step` when `status = faulted`. Safe: a faulted engine takes no step. -/
  | engineFaulted
deriving DecidableEq, Repr

/-- Why an instruction is refused. -/
inductive Refusal where
  /-- Raised by `exec` for an instruction that has no meaning yet. Safe: nothing can be proved of its effect.
  No arm of `exec` raises it: all nine instructions have their meaning. -/
  | notModelled (mnemonic : String)
deriving DecidableEq, Repr

/-- The architectural state, "exactly the following, and nothing else" (10_state.md R20), and the parameters the
engine was constructed with, which are not state of the hardware (R34) and which no step changes (log 1). -/
structure State where
  /-- XLEN, IMEM_WORDS, DMEM_WORDS (00_scope.md R5). -/
  params : Params
  /-- `x[0]` … `x[4]` (R21). -/
  regs : Vector (BitVec params.xlen) 5
  /-- The index of the instruction that the current step executes (R24). -/
  pc : PcWord
  /-- The machine's only condition code (R27). -/
  flag : Flag
  /-- `IMem` (R33). -/
  imem : Memory 32
  /-- `DMem` (R33). -/
  dmem : Memory params.xlen
  /-- `status` (R29). -/
  status : RunStatus
  /-- `fault_cause` (R29). -/
  faultCause : FaultCause
deriving DecidableEq, Repr

namespace State

/-- The state right after an engine is constructed with the parameters `p` (10_state.md R40,
70_reset_and_hazards.md R190). -/
def construct (p : Params) : State where
  params := p
  regs := Vector.replicate 5 0
  pc := 0
  flag := .equal
  imem := []
  dmem := []
  status := .running
  faultCause := .none

/-- The machine right after reset: an engine of the default parameters. -/
def reset : State := construct Params.standard

end State

end Sys2Proof.Machine
end

