-- ==== Sys2Proof/Machine/Operands.lean ====
section
/-! DEFINITION. Reading operands: the number readings and widenings of 00_scope.md R7, register selects
(10_state.md R22) and the two address forms (20_memory.md R51). -/

namespace Sys2Proof.Machine

/-- `uint(v) = v` (R7). -/
def uint {n : Nat} (v : BitVec n) : Nat := v.toNat

/-- The two's complement reading: `v` if `v < 2^(n-1)`, else `v - 2^n` (R7). -/
def sint {n : Nat} (v : BitVec n) : Int := if v.toNat < 2 ^ (n - 1) then v.toNat else (v.toNat : Int) - 2 ^ n

/-- The `n`-bit pattern `z mod 2^n`, the non-negative remainder (R7). -/
def trunc (n : Nat) (z : Int) : BitVec n := BitVec.ofNat n (z % 2 ^ n).toNat

/-- `zext_N(v)`: widening by zero bits (R7). -/
def zext {m : Nat} (N : Nat) (v : BitVec m) : BitVec N := BitVec.ofNat N v.toNat

/-- `sext_N(v)`: widening by copies of the top bit (R7); "no rule of this spec uses it". -/
def sext {m : Nat} (N : Nat) (v : BitVec m) : BitVec N := trunc N (sint v)

/-- The register a select names, or `InvalidOpcode(reg)` for 5, 6 and 7 (R8, 10_state.md R22). -/
def regIndex (r : RegSel) : Except StepFault RegIdx :=
  if h : r.toNat < 5 then .ok ⟨r.toNat, h⟩ else .error .invalidOpcodeReg

/-- LOAD's effective address: a register's content read as a signed integer (20_memory.md R51). -/
def loadAddress {n : Nat} (v : BitVec n) : Int := sint v

/-- STORE's effective address: the immediate read as unsigned (20_memory.md R51). -/
def storeAddress (imm : Imm) : Int := (uint imm : Int)

/-- A jump's target: the immediate itself, an absolute instruction index (42_control.md R143). -/
def jumpTarget (imm : Imm) : PcWord := zext 20 imm

/-- MOVE's literal: the immediate zero-extended to the register width (30_encoding.md R74). -/
def moveLiteral (n : Nat) (imm : Imm) : BitVec n := zext n imm

end Sys2Proof.Machine
end

