-- ==== Sys2Proof/Machine/Flags.lean ====
section
/-! DEFINITION. The comparison that sets the flag (41_alu.md R122) and the bit forms of the flag and of the two
latches (10_state.md R28, R29; 60_exceptions.md R161). The machine has no carry, overflow, zero or sign flag
(10_state.md R27), so there is no other flag computation. -/

namespace Sys2Proof.Machine

/-- The signed three-way comparison of the first operand with the second: `greater` means first > second
(R122; the direction is the spec's decision D4). -/
def compareSigned {n : Nat} (a b : BitVec n) : Flag :=
  if sint a > sint b then .greater else if sint a < sint b then .less else .equal

/-- The flag in bits: `equal = 0b00`, `greater = 0b01`, `less = 0b10` (10_state.md R28). -/
def flagBits : Flag → BitVec 2
  | .equal => 0b00
  | .greater => 0b01
  | .less => 0b10

/-- `status` in bits: `running = 0`, `halted = 1`, `faulted = 2` (10_state.md R29). -/
def statusBits : RunStatus → BitVec 2
  | .running => 0
  | .halted => 1
  | .faulted => 2

/-- The 3-bit cause code (60_exceptions.md R161). -/
def causeCode : FaultCause → BitVec 3
  | .none => 0
  | .invalidOpcodeOp => 1
  | .invalidOpcodeReg => 2
  | .fetchFault => 3
  | .dataAddressFault => 4

/-- The cause a raised fault latches (60_exceptions.md R161). -/
def causeOf : StepFault → FaultCause
  | .invalidOpcodeOp _ => .invalidOpcodeOp
  | .invalidOpcodeReg => .invalidOpcodeReg
  | .fetchFault _ => .fetchFault
  | .dataAddressFault _ => .dataAddressFault

end Sys2Proof.Machine
end

