-- ==== Sys2Proof/Machine/Ops.lean ====
section
/-! DEFINITION. The named operations over memory and registers, and taking a fault (60_exceptions.md R165). -/

namespace Sys2Proof.Machine

/-- What one step or one instruction answers. -/
abbrev Out := Host.Outcome State Fault Refusal

namespace Memory

/-- The entry at an address; 0 where nothing is listed (10_state.md R33). -/
def read {w : Nat} : Memory w → Nat → BitVec w
  | [], _ => 0
  | (b, u) :: rest, a => if a = b then u else read rest a

/-- The entry `v` put before `rest`, or nothing for the value an unlisted address reads as. -/
def put {w : Nat} (a : Nat) (v : BitVec w) (rest : Memory w) : Memory w := if v = 0 then rest else (a, v) :: rest

/-- The memory with the entry at `a` replaced by `v`, in canonical form. -/
def write {w : Nat} : Memory w → Nat → BitVec w → Memory w
  | [], a, v => put a v []
  | (b, u) :: rest, a, v =>
    if a < b then put a v ((b, u) :: rest) else if a = b then put a v rest else (b, u) :: write rest a v

/-- The memory whose entries from address `k` on are `vs` and which is 0 elsewhere. -/
def ofListFrom {w : Nat} : Nat → List (BitVec w) → Memory w
  | _, [] => []
  | k, v :: vs => put k v (ofListFrom (k + 1) vs)

/-- The memory that holds `vs` from index 0 (70_reset_and_hazards.md R195: "total overwrites from index 0"). -/
def ofList {w : Nat} (vs : List (BitVec w)) : Memory w := ofListFrom 0 vs

/-- The canonical form: addresses strictly rising and no entry equal to 0. -/
abbrev wf {w : Nat} (m : Memory w) : Prop := m.Pairwise (fun x y => x.1 < y.1) ∧ ∀ x ∈ m, x.2 ≠ 0

/-- Every listed address is below a capacity. -/
abbrev within {w : Nat} (m : Memory w) (cap : Nat) : Prop := ∀ x ∈ m, x.1 < cap

end Memory

namespace State

/-- `XLEN` of this engine. -/
abbrev xlen (s : State) : Nat := s.params.xlen

/-- `x[r]`: the content of a register. No register is hardwired (10_state.md R21). -/
def reg (s : State) (r : RegIdx) : BitVec s.xlen := s.regs[r]

/-- `x[r] <- v` (10_state.md R21: R0 is an ordinary register). -/
def setReg (s : State) (r : RegIdx) (v : BitVec s.xlen) : State := { s with regs := s.regs.set r v }

/-- `pc <- t`. -/
def setPc (s : State) (t : PcWord) : State := { s with pc := t }

/-- `pc <- pc + 1` (10_state.md R25). -/
def nextPc (s : State) : State := s.setPc (s.pc + 1)

/-- `flag <- f` (10_state.md R27). -/
def setFlag (s : State) (f : Flag) : State := { s with flag := f }

/-- `status <- halted`, TERMINATE's effect (42_control.md R142). -/
def halt (s : State) : State := { s with status := .halted }

/-- One cell of data memory; 0 outside what is listed. -/
def cell (s : State) (a : Nat) : BitVec s.xlen := s.dmem.read a

/-- `DMem[a] <- v`, all XLEN bits, no other cell. -/
def setCell (s : State) (a : Nat) (v : BitVec s.xlen) : State := { s with dmem := s.dmem.write a v }

/-- One word of instruction memory; 0 outside what is listed. -/
def word (s : State) (a : Nat) : InstrWord := s.imem.read a

/-- TAKING A FAULT (60_exceptions.md R165): `status <- faulted`, `fault_cause <-` the fault's code, and nothing
else: no register, flag, memory cell and not `pc`. There is no saved pc, no vector and no return from a fault
(R165 item 4, R168), so there is no operation beside this one that returns. -/
def raise (s : State) (e : StepFault) : State := { s with status := .faulted, faultCause := causeOf e }

end State

/-- The end of an instruction: its writes take effect together, or its fault is taken with none of them
(10_state.md R31 step 6, 60_exceptions.md R166). -/
def settle (s : State) : Except StepFault State → Out
  | .ok t => .next t
  | .error e => .next (s.raise e)

/-- A data address inside 0 … DMEM_WORDS-1 as an index, or `DataAddressFault(a)`
(20_memory.md R53, R54; 60_exceptions.md R164). -/
def dataIndex (s : State) (a : Int) : Except StepFault Nat :=
  if 0 ≤ a ∧ a < s.params.dmemWords then .ok a.toNat else .error (.dataAddressFault a)

/-- `MemRead(a, 1)` (20_memory.md R53). -/
def memRead (s : State) (a : Int) : Except StepFault (BitVec s.xlen) := do
  let i ← dataIndex s a
  .ok (s.cell i)

/-- `MemWrite(a, 1, v)` (20_memory.md R54). -/
def memWrite (s : State) (a : Int) (v : BitVec s.xlen) : Except StepFault State := do
  let i ← dataIndex s a
  .ok (s.setCell i v)

/-- `Fetch(pc)`: the word at `pc`, or `FetchFault(pc)` (20_memory.md R52). -/
def fetch (s : State) : Except StepFault InstrWord :=
  if s.pc.toNat < s.params.imemWords then .ok (s.word s.pc.toNat) else .error (.fetchFault s.pc.toNat)

/-- The instruction a fetched word names, or `InvalidOpcode(op)` (10_state.md R31 steps 2 and 3). -/
def decodeFetched (w : InstrWord) : Except StepFault Instr :=
  match decode w with
  | .ok i => .ok i
  | .error (.undefinedOpcode op) => .error (.invalidOpcodeOp op)

/-- Steps 1 to 3 of 10_state.md R31: fetch and decode. -/
def fetchInstr (s : State) : Except StepFault Instr := do
  let w ← fetch s
  decodeFetched w

end Sys2Proof.Machine
end

