-- ==== Sys2Proof/Machine/Alu.lean ====
section
/-! DEFINITION. The arithmetic unit (10_state.md R38, 41_alu.md R126), for every width. -/

namespace Sys2Proof.Machine

/-- The four operations of the unit; there are no others (41_alu.md R125). -/
inductive AluOp where
  | add
  | inc
  | cmp
  | pass
deriving DecidableEq, Repr

/-- The unit's outputs. `result` is `none` where 41_alu.md R126 says "not used" (log 13). -/
structure AluOut (n : Nat) where
  result : Option (BitVec n)
  cmp : Flag
deriving DecidableEq, Repr

/-- `ALU_ADD`: the exact signed sum, truncated to the width (41_alu.md R120, R123). -/
def aluAdd {n : Nat} (a b : BitVec n) : BitVec n := trunc n (sint a + sint b)

/-- `ALU_INC`: the exact signed successor, truncated to the width (41_alu.md R121, R123). -/
def aluInc {n : Nat} (a : BitVec n) : BitVec n := trunc n (sint a + 1)

/-- `ALU_PASS`: the second input (41_alu.md R126). -/
def aluPass {n : Nat} (b : BitVec n) : BitVec n := b

/-- The whole unit: `cmp` "is computed from `a` and `b` the same way" for every `op` (10_state.md R38). -/
def alu {n : Nat} (op : AluOp) (a b : BitVec n) : AluOut n where
  result :=
    match op with
    | .add => some (aluAdd a b)
    | .inc => some (aluInc a)
    | .pass => some (aluPass b)
    | .cmp => none
  cmp := compareSigned a b

end Sys2Proof.Machine
end

