-- ==== Sys2Proof/Machine/Arithmetic.lean ====
section
/-! DEFINITION. ADD, INC and CMP (41_alu.md). -/

namespace Sys2Proof.Machine

/-- ADD (41_alu.md R120): `x[dst] <- trunc(sint(x[src1]) + sint(x[src2]))`, `pc <- pc + 1`; `flag` untouched. -/
def execAdd (dst src1 src2 : RegSel) (s : State) : Out :=
  settle s do
    let d ← regIndex dst
    let a ← regIndex src1
    let b ← regIndex src2
    .ok (s.setReg d (aluAdd (s.reg a) (s.reg b))).nextPc

/-- INC (R121): `x[dst] <- trunc(sint(x[dst]) + 1)`, `pc <- pc + 1`; `flag` untouched. -/
def execInc (dst : RegSel) (s : State) : Out :=
  settle s do
    let d ← regIndex dst
    .ok (s.setReg d (aluInc (s.reg d))).nextPc

/-- CMP (R122): `flag <-` the signed comparison of `x[dst]` with `x[src1]`, `pc <- pc + 1`. -/
def execCmp (dst src1 : RegSel) (s : State) : Out :=
  settle s do
    let a ← regIndex dst
    let b ← regIndex src1
    .ok (s.setFlag (compareSigned (s.reg a) (s.reg b))).nextPc

end Sys2Proof.Machine
end

