-- ==== Sys2Proof/Machine/Control.lean ====
section
/-! DEFINITION. JUMP_IF, JUMP and TERMINATE (42_control.md): none uses a register field, none faults. -/

namespace Sys2Proof.Machine

/-- JUMP_IF (42_control.md R140): `pc <- imm` if `flag = equal`, else `pc <- pc + 1`. -/
def execJumpIf (imm : Imm) (s : State) : Out :=
  .next (if s.flag = .equal then s.setPc (jumpTarget imm) else s.nextPc)

/-- JUMP (R141): `pc <- imm`. -/
def execJump (imm : Imm) (s : State) : Out := .next (s.setPc (jumpTarget imm))

/-- TERMINATE (R142): `pc <- pc + 1`, `status <- halted`. -/
def execTerminate (s : State) : Out := .next s.nextPc.halt

end Sys2Proof.Machine
end

