-- ==== Sys2Proof/Machine/MemoryMove.lean ====
section
/-! DEFINITION. LOAD, STORE and MOVE (40_memory_move.md). In every meaning the register fields are checked first, in
the order `dst`, `src1`, `src2` (10_state.md R31 step 4), and all reads see the state as it was when the step began
(70_reset_and_hazards.md R200). -/

namespace Sys2Proof.Machine

/-- LOAD (40_memory_move.md R110): `a <- sint(x[src1])`, `v <- MemRead(a, 1)`, `x[dst] <- v`, `pc <- pc + 1`. -/
def execLoad (dst src1 : RegSel) (s : State) : Out :=
  settle s do
    let d ← regIndex dst
    let r ← regIndex src1
    let v ← memRead s (loadAddress (s.reg r))
    .ok (s.setReg d (aluPass v)).nextPc

/-- STORE (R111): `v <- x[dst]`, `MemWrite(imm, 1, v)`, `pc <- pc + 1`. -/
def execStore (dst : RegSel) (imm : Imm) (s : State) : Out :=
  settle s do
    let r ← regIndex dst
    let t ← memWrite s (storeAddress imm) (s.reg r)
    .ok t.nextPc

/-- MOVE (R112): `x[dst] <- zext_XLEN(imm)`, `pc <- pc + 1`. -/
def execMove (dst : RegSel) (imm : Imm) (s : State) : Out :=
  settle s do
    let d ← regIndex dst
    .ok (s.setReg d (aluPass (moveLiteral s.xlen imm))).nextPc

end Sys2Proof.Machine
end

