-- ==== Sys2Proof/Machine/Dispatch.lean ====
section
/-! DEFINITION. What each instruction does: one arm per constructor of `Instr`. -/

namespace Sys2Proof.Machine

/-- What an instruction does in a state, whatever the run status; `step` asks for it only while `running`. -/
def exec (i : Instr) (s : State) : Host.Outcome State Fault Refusal :=
  match i with
  | .load dst src1 => Sys2Proof.Machine.execLoad dst src1 s
  | .store dst imm => Sys2Proof.Machine.execStore dst imm s
  | .add dst src1 src2 => Sys2Proof.Machine.execAdd dst src1 src2 s
  | .jumpIf imm => Sys2Proof.Machine.execJumpIf imm s
  | .jump imm => Sys2Proof.Machine.execJump imm s
  | .terminate => Sys2Proof.Machine.execTerminate s
  | .cmp dst src1 => Sys2Proof.Machine.execCmp dst src1 s
  | .inc dst => Sys2Proof.Machine.execInc dst s
  | .move dst imm => Sys2Proof.Machine.execMove dst imm s

end Sys2Proof.Machine
end

