-- ==== Sys2Proof/Machine/Step.lean ====
section
/-! DEFINITION. One step of the engine (10_state.md R31). -/

namespace Sys2Proof.Machine

/-- One step: fetch, decode, check the opcode, perform the instruction's rule (R31).
A state whose status is `halted` or `faulted` "has no step" (00_scope.md R9). -/
def step (s : State) : Host.Outcome State Fault Refusal :=
  match s.status with
  | .halted => .fault .engineHalted
  | .faulted => .fault .engineFaulted
  | .running =>
    match fetchInstr s with
    | .ok i => exec i s
    | .error e => .next (s.raise e)

/-- `s` with the word `w` (bits at and above `nbits` zero) at the instruction address that the next step fetches,
which is all the fetch needs. Where `pc` is outside instruction memory there is no word to place and `s` is
unchanged: its next step is a FetchFault (log 7). -/
def State.withFetchWord (s : State) (nbits w : Nat) : State :=
  if s.pc.toNat < s.params.imemWords then
    { s with imem := s.imem.write s.pc.toNat (BitVec.ofNat 32 (w % 2 ^ nbits)) }
  else s

end Sys2Proof.Machine
end

