-- ==== Sys2Proof/Machine/Assembler.lean ====
section
/-! DEFINITION. The assembler (30_encoding.md section 7, R85 to R94): source lines to canonical words. It is the
toolchain, not the hardware; no step uses it. A line is its list of characters. -/

namespace Sys2Proof.Machine.Asm

/-- A token, a label name or a line: its characters. -/
abbrev Text := List Char

/-- The errors of one `compile` call; each is fatal to the whole call (R92). -/
inductive AsmError where
  | duplicateLabel (name : Text)
  | unknownOpcode (token : Text)
  | unknownRegister (token : Text)
  | unresolvedLabel (token : Text)
  | operandCount (mnemonic : Text)
  | immediateRange (token : Text)
deriving DecidableEq, Repr

/-- The operand slots (R86). -/
inductive Slot where
  | dst
  | src1
  | src2
  | imm
deriving DecidableEq, Repr

/-- What a source line is (R85). -/
inductive Line where
  | blank
  | comment
  | label (name : Text)
  | instruction (tokens : List Text)
deriving DecidableEq, Repr

/-- White space (log 10). -/
def isSpace (c : Char) : Bool := c.isWhitespace

/-- The text without leading and trailing white space. -/
def trim (t : Text) : Text := ((t.dropWhile isSpace).reverse.dropWhile isSpace).reverse

/-- "a non-empty string of letters, digits and `_` that does not begin with a digit" (R87, D26; log 10). -/
def isLabelName : Text → Bool
  | [] => false
  | c :: cs => (c.isAlpha || c == '_') && cs.all fun x => x.isAlphanum || x == '_'

/-- The name of a line that is exactly `<name>:` (R85, R87). A line that ends in `:` after anything but a label name is no
label definition; what R87's `<name>` covers there is left open (DESIGN CHOICE, log 15). -/
def labelOf (t : Text) : Option Text :=
  match t.reverse with
  | ':' :: r => if isLabelName r.reverse then some r.reverse else none
  | _ => none

/-- The maximal runs of characters that are not white space; `acc` is the run so far, reversed. -/
def tokensFrom : Text → Text → List Text
  | [], acc => if acc = [] then [] else [acc.reverse]
  | c :: cs, acc =>
    if isSpace c then (if acc = [] then [] else [acc.reverse]) ++ tokensFrom cs [] else tokensFrom cs (c :: acc)

/-- What a line is: the label test is made before the trailing comment is stripped (R85). A line such as `INC R0 # note:`
or `TERMINATE :`, which ends in `:` without being a label definition, is read as any other instruction line
(DESIGN CHOICE, log 15). -/
def classify (raw : Text) : Line :=
  match trim raw with
  | [] => .blank
  | c :: cs =>
    if c = '#' then .comment
    else
      match labelOf (c :: cs) with
      | some name => .label name
      | none => .instruction (tokensFrom ((c :: cs).takeWhile (· ≠ '#')) [])

/-- A mnemonic's opcode and the slot of each of its operands, in the order they are written (R86). -/
def catalog : List (Text × Opcode × List Slot) :=
  [("LOAD".toList, 0, [.dst, .src1]), ("STORE".toList, 1, [.dst, .imm]), ("ADD".toList, 2, [.dst, .src1, .src2]),
    ("JUMP_IF".toList, 3, [.imm]), ("JUMP".toList, 4, [.imm]), ("TERMINATE".toList, 5, []),
    ("CMP".toList, 6, [.dst, .src1]), ("INC".toList, 7, [.dst]), ("MOVE".toList, 8, [.dst, .imm])]

/-- "a register name from `{R0,R1,R2,R3,R4}`", matched exactly, and its fixed index (R87). -/
def registerNumber (t : Text) : Option Nat :=
  [("R0".toList, 0), ("R1".toList, 1), ("R2".toList, 2), ("R3".toList, 3), ("R4".toList, 4)].lookup t

/-- "decimal digits only": the value of a non-empty digit string (R87). -/
def numeric (t : Text) : Option Nat :=
  if t ≠ [] ∧ t.all Char.isDigit then some (t.foldl (fun n c => 10 * n + (c.toNat - '0'.toNat)) 0) else none

/-- Labels and the instruction index each stands for (R89). -/
abbrev SymbolTable := List (Text × Nat)

/-- A deferred patch: the label and the index of the word whose `imm` field waits for it (R87 step 4). -/
structure Fixup where
  name : Text
  index : Nat
deriving DecidableEq, Repr

/-- A value that fits the `imm` field (R88; for a label's index log 12). -/
def checkImm (token : Text) (n : Nat) : Except AsmError Nat :=
  if n < 2 ^ 19 then .ok n else .error (.immediateRange token)

/-- An `imm` slot's value by steps 1 to 3 of R87, or `none` for a forward reference (step 4). -/
def resolveImm (symbols : SymbolTable) (token : Text) : Except AsmError (Option Nat) :=
  match numeric token with
  | some n => (checkImm token n).map some
  | none =>
    match registerNumber token with
    | some k => .ok (some k)
    | none =>
      match symbols.lookup token with
      | some i => (checkImm token i).map some
      | none => .ok none

/-- A register slot accepts only a register name (R88). -/
def resolveReg (token : Text) : Except AsmError RegSel :=
  match registerNumber token with
  | some k => .ok (BitVec.ofNat 3 k)
  | none => .error (.unknownRegister token)

/-- The fields of a line's operands and, where the `imm` slot holds a forward reference, its label
("substitute 0 as a placeholder", R87). Operands are resolved from left to right (log 11). -/
def operands (symbols : SymbolTable) : List Slot → List Text → Fields → Except AsmError (Fields × Option Text)
  | .dst :: slots, t :: ts, f => do
    let r ← resolveReg t
    operands symbols slots ts { f with dst := r }
  | .src1 :: slots, t :: ts, f => do
    let r ← resolveReg t
    operands symbols slots ts { f with src1 := r }
  | .src2 :: slots, t :: ts, f => do
    let r ← resolveReg t
    operands symbols slots ts { f with src2 := r }
  | .imm :: _, t :: _, f => do
    let v ← resolveImm symbols t
    match v with
    | some n => .ok ({ f with imm := BitVec.ofNat 19 n }, none)
    | none => .ok (f, some t)
  | _, _, f => .ok (f, none)

/-- An instruction line: mnemonic in any case (R86), looked up, its operands counted and resolved, encoded by R81. -/
def instructionWord (symbols : SymbolTable) : List Text → Except AsmError (InstrWord × Option Text)
  | [] => .error (.unknownOpcode [])
  | m :: ts =>
    match catalog.lookup (m.map Char.toUpper) with
    | none => .error (.unknownOpcode m)
    | some (op, slots) =>
      if ts.length ≠ slots.length then .error (.operandCount m)
      else do
        let (f, pending) ← operands symbols slots ts ⟨op, 0, 0, 0, 0⟩
        .ok (f.encode, pending)

/-- What pass 1 carries from line to line (R90); the instruction index is the number of words so far. -/
structure Pass1 where
  symbols : SymbolTable
  words : List InstrWord
  fixups : List Fixup
deriving DecidableEq, Repr

/-- One line of pass 1 (R89, R90). -/
def passOneLine (p : Pass1) (line : Text) : Except AsmError Pass1 :=
  match classify line with
  | .blank => .ok p
  | .comment => .ok p
  | .label name =>
    match p.symbols.lookup name with
    | some _ => .error (.duplicateLabel name)
    | none => .ok { p with symbols := p.symbols ++ [(name, p.words.length)] }
  | .instruction tokens => do
    let (w, pending) ← instructionWord p.symbols tokens
    .ok { p with
      words := p.words ++ [w]
      fixups := p.fixups ++ (pending.map fun name => Fixup.mk name p.words.length).toList }

/-- Pass 1: the lines in order (R90). -/
def passOne : Pass1 → List Text → Except AsmError Pass1
  | p, [] => .ok p
  | p, line :: rest => do
    let p' ← passOneLine p line
    passOne p' rest

/-- `word <- (word AND 0xFFF80000) OR index` (R91). -/
def patchWord (w : InstrWord) (i : Nat) : InstrWord := (w &&& 0xFFF80000) ||| BitVec.ofNat 32 i

/-- Pass 2: each pending fixup, in the order recorded, against the complete symbol table (R91). -/
def passTwo (symbols : SymbolTable) : List Fixup → List InstrWord → Except AsmError (List InstrWord)
  | [], words => .ok words
  | x :: rest, words =>
    match symbols.lookup x.name with
    | none => .error (.unresolvedLabel x.name)
    | some i => do
      let n ← checkImm x.name i
      passTwo symbols rest (words.modify x.index fun w => patchWord w n)

/-- One `compile` call: the assembled words, or an error and no output (R92, R93). -/
def compile (lines : List Text) : Except AsmError (List InstrWord) := do
  let p ← passOne ⟨[], [], []⟩ lines
  passTwo p.symbols p.fixups p.words

/-- Is a line an instruction line? "non-blank, non-comment, non-label" (R93). -/
def isInstructionLine (line : Text) : Bool :=
  match classify line with
  | .instruction _ => true
  | .blank => false
  | .comment => false
  | .label _ => false

/-- The complete symbol table of a source text: every label with the number of instruction lines before it
(R89); `k` instruction lines stand before `lines`. -/
def labelIndices : Nat → List Text → SymbolTable
  | _, [] => []
  | k, line :: rest =>
    match classify line with
    | .blank => labelIndices k rest
    | .comment => labelIndices k rest
    | .label name => (name, k) :: labelIndices k rest
    | .instruction _ => labelIndices (k + 1) rest

/-- The value of a token in an `imm` slot with every label known: a decimal literal's, else a register name's index, else a
label's index, "the first that applies winning" (R87). -/
def immValue (symbols : SymbolTable) (t : Text) : Option Nat :=
  match numeric t with
  | some n => some n
  | none =>
    match registerNumber t with
    | some k => some k
    | none => symbols.lookup t

/-- The tokens of a line spell an instruction: the mnemonic in any case and the operands in the order and the fields of the
table of R86, row by row. The assembler itself works from `catalog`. -/
def Spells (symbols : SymbolTable) (tokens : List Text) : Instr → Prop
  | .load dst src1 => ∃ m d a, tokens = [m, d, a] ∧ m.map Char.toUpper = "LOAD".toList ∧
      registerNumber d = some dst.toNat ∧ registerNumber a = some src1.toNat
  | .store dst imm => ∃ m r a, tokens = [m, r, a] ∧ m.map Char.toUpper = "STORE".toList ∧
      registerNumber r = some dst.toNat ∧ immValue symbols a = some imm.toNat
  | .add dst src1 src2 => ∃ m d a b, tokens = [m, d, a, b] ∧ m.map Char.toUpper = "ADD".toList ∧
      registerNumber d = some dst.toNat ∧ registerNumber a = some src1.toNat ∧ registerNumber b = some src2.toNat
  | .jumpIf imm => ∃ m a, tokens = [m, a] ∧ m.map Char.toUpper = "JUMP_IF".toList ∧
      immValue symbols a = some imm.toNat
  | .jump imm => ∃ m a, tokens = [m, a] ∧ m.map Char.toUpper = "JUMP".toList ∧ immValue symbols a = some imm.toNat
  | .terminate => ∃ m, tokens = [m] ∧ m.map Char.toUpper = "TERMINATE".toList
  | .cmp dst src1 => ∃ m a b, tokens = [m, a, b] ∧ m.map Char.toUpper = "CMP".toList ∧
      registerNumber a = some dst.toNat ∧ registerNumber b = some src1.toNat
  | .inc dst => ∃ m d, tokens = [m, d] ∧ m.map Char.toUpper = "INC".toList ∧ registerNumber d = some dst.toNat
  | .move dst imm => ∃ m d a, tokens = [m, d, a] ∧ m.map Char.toUpper = "MOVE".toList ∧
      registerNumber d = some dst.toNat ∧ immValue symbols a = some imm.toNat

/-- The words of the instruction lines, each encoded by R81 at once with every label known from `symbols`: the encoding
that pass 2's patch must reproduce (R91). A label that `symbols` lacks is an error. -/
def directWords (symbols : SymbolTable) : List Text → Except AsmError (List InstrWord)
  | [] => .ok []
  | line :: rest =>
    match classify line with
    | .blank => directWords symbols rest
    | .comment => directWords symbols rest
    | .label _ => directWords symbols rest
    | .instruction tokens => do
      let (w, pending) ← instructionWord symbols tokens
      match pending with
      | some name => .error (.unresolvedLabel name)
      | none => do
        let ws ← directWords symbols rest
        .ok (w :: ws)

end Sys2Proof.Machine.Asm
end

