-- ==== Sys2Proof/Machine/Datapath.lean ====
section
/-! DEFINITION. The machine organised block by block: decoder (10_state.md R36), register file (R37), arithmetic
unit (R38) and the steering of one by the other (R39). "They add no behaviour beyond the instruction rules": `step`
is the machine, and that this organisation does the same is a claim about it. A port that R39 leaves unused ("–")
shows an arbitrary value, the argument `idle` (log 13). -/

namespace Sys2Proof.Machine

/-- Which field selects a read port's register; `unused` is R39's "–". -/
inductive PortSource where
  | dst
  | src1
  | src2
  | unused
deriving DecidableEq, Repr

/-- What drives the arithmetic unit's first input. -/
inductive AluA where
  | portA
  | unused
deriving DecidableEq, Repr

/-- What drives the arithmetic unit's second input. -/
inductive AluB where
  | portB
  | memRead
  | zextImm
  | unused
deriving DecidableEq, Repr

/-- Which data-memory access an opcode makes. -/
inductive MemAccess where
  | none
  | readAtPortA
  | writeAtImm
deriving DecidableEq, Repr

/-- Where the next `pc` comes from. -/
inductive PcSource where
  | succ
  | imm
  | immIfEqual
deriving DecidableEq, Repr

/-- One row of the steering table. -/
structure Control where
  portA : PortSource
  portB : PortSource
  aluOp : Option AluOp
  aluA : AluA
  aluB : AluB
  wEn : Bool
  mem : MemAccess
  flagEn : Bool
  pcSource : PcSource
  halt : Bool
deriving DecidableEq, Repr

/-- The steering table R39. Opcodes 9 to 15 steer nothing: with `illegal = 1` the step faults (R37). -/
def steering (op : Opcode) : Control :=
  match op.toNat with
  | 0 => ⟨.src1, .unused, some .pass, .unused, .memRead, true, .readAtPortA, false, .succ, false⟩
  | 1 => ⟨.dst, .unused, none, .unused, .unused, false, .writeAtImm, false, .succ, false⟩
  | 2 => ⟨.src1, .src2, some .add, .portA, .portB, true, .none, false, .succ, false⟩
  | 3 => ⟨.unused, .unused, none, .unused, .unused, false, .none, false, .immIfEqual, false⟩
  | 4 => ⟨.unused, .unused, none, .unused, .unused, false, .none, false, .imm, false⟩
  | 5 => ⟨.unused, .unused, none, .unused, .unused, false, .none, false, .succ, true⟩
  | 6 => ⟨.dst, .src1, some .cmp, .portA, .portB, false, .none, true, .succ, false⟩
  | 7 => ⟨.dst, .unused, some .inc, .portA, .unused, true, .none, false, .succ, false⟩
  | 8 => ⟨.unused, .unused, some .pass, .unused, .zextImm, true, .none, false, .succ, false⟩
  | _ => ⟨.unused, .unused, none, .unused, .unused, false, .none, false, .succ, false⟩

/-- A read port of the register file (R37): the selected register's current content. What it shows for an unused port
or a select of 5 to 7 "need not be defined". -/
def readPort (s : State) (f : Fields) (idle : Nat) : PortSource → BitVec s.xlen
  | .dst => if h : f.dst.toNat < 5 then s.reg ⟨f.dst.toNat, h⟩ else BitVec.ofNat s.xlen idle
  | .src1 => if h : f.src1.toNat < 5 then s.reg ⟨f.src1.toNat, h⟩ else BitVec.ofNat s.xlen idle
  | .src2 => if h : f.src2.toNat < 5 then s.reg ⟨f.src2.toNat, h⟩ else BitVec.ofNat s.xlen idle
  | .unused => BitVec.ofNat s.xlen idle

/-- The write port of the register file (R37): with `w_en`, the selected register is replaced. What a write does for a
select of 5 to 7 "need not be defined" (R37); DESIGN CHOICE: it leaves every register as it was (log 13). -/
def writePort (s : State) (wEn : Bool) (wSel : RegSel) (wData : BitVec s.xlen) : Vector (BitVec s.xlen) 5 :=
  if h : wEn = true ∧ wSel.toNat < 5 then s.regs.set wSel.toNat wData h.2 else s.regs

/-- The data address of the access, if the opcode makes one. -/
def accessAddress (f : Fields) (portA : Int) : MemAccess → Option Int
  | .none => none
  | .readAtPortA => some portA
  | .writeAtImm => some (storeAddress f.imm)

/-- The commit of a legal word's step: all blocks' outputs from the state at the start of the step, all writes at its
end. -/
def datapathCommit (idle : Nat) (f : Fields) (s : State) : State :=
  let c := steering f.opcode
  let portA := readPort s f idle c.portA
  let portB := readPort s f idle c.portB
  let aluA := match c.aluA with
    | .portA => portA
    | .unused => BitVec.ofNat s.xlen idle
  let aluB := match c.aluB with
    | .portB => portB
    | .memRead => s.cell (sint portA).toNat
    | .zextImm => zext s.xlen f.imm
    | .unused => BitVec.ofNat s.xlen idle
  let out := c.aluOp.map fun op => alu op aluA aluB
  let result := (out.bind AluOut.result).getD (BitVec.ofNat s.xlen idle)
  { s with
    regs := writePort s c.wEn f.dst result
    pc := match c.pcSource with
      | .succ => s.pc + 1
      | .imm => zext 20 f.imm
      | .immIfEqual => if s.flag = .equal then zext 20 f.imm else s.pc + 1
    flag := if c.flagEn then (out.map AluOut.cmp).getD s.flag else s.flag
    dmem := match c.mem with
      | .writeAtImm => s.dmem.write f.imm.toNat portA
      | .none => s.dmem
      | .readAtPortA => s.dmem
    status := if c.halt then .halted else s.status }

/-- One step of the block-level machine: fetch bound, decoder validity, data bound, commit. -/
def datapathStep (idle : Nat) (s : State) : Out :=
  match s.status with
  | .halted => .fault .engineHalted
  | .faulted => .fault .engineFaulted
  | .running =>
    if s.pc.toNat < s.params.imemWords then
      let d := decoderBlock (s.word s.pc.toNat)
      if d.opValid = false then .next (s.raise (.invalidOpcodeOp d.fields.opcode))
      else if d.illegal then .next (s.raise .invalidOpcodeReg)
      else
        let c := steering d.fields.opcode
        match accessAddress d.fields (sint (readPort s d.fields idle c.portA)) c.mem with
        | none => .next (datapathCommit idle d.fields s)
        | some a =>
          if 0 ≤ a ∧ a < s.params.dmemWords then .next (datapathCommit idle d.fields s)
          else .next (s.raise (.dataAddressFault a))
    else .next (s.raise (.fetchFault s.pc.toNat))

end Sys2Proof.Machine
end

