-- ==== Sys2Proof/Machine/Loading.lean ====
section
/-! DEFINITION. The host's side of an engine's life before the run (70_reset_and_hazards.md R190 to R195):
construction, `load_program`, `load_data`, the start of the run. -/

namespace Sys2Proof.Machine

/-- Why the host's request is refused; the engine is unchanged. None of these has a cause code (60_exceptions.md R171). -/
inductive LoadError where
  /-- Construction parameters outside the bounds of 00_scope.md R5 (93_implementation_defined.md V14). -/
  | badParameters
  /-- More words than IMEM_WORDS (R193). -/
  | programTooLarge
  /-- More values than DMEM_WORDS (R194). -/
  | dataTooLarge
  /-- A program element outside 0 … 2^32-1 (R193, D19). -/
  | wordOutOfRange
  /-- A data value outside -2^(XLEN-1) … 2^(XLEN-1)-1 (R194, D19). -/
  | valueOutOfRange
  /-- A second load of the same memory, a load after the start, or a start without a program:
  "anything else has no meaning in this spec" (R191, R192, D18; log 8). -/
  | outOfOrder
deriving DecidableEq, Repr

/-- `load_program(P)` on a state (R193): `IMem[i] <- P[i]` for i < n, 0 above. -/
def loadProgram (program : List Int) (s : State) : Except LoadError State :=
  if s.params.imemWords < program.length then .error .programTooLarge
  else if ∀ w ∈ program, 0 ≤ w ∧ w < 2 ^ 32 then
    .ok { s with imem := Memory.ofList (program.map (trunc 32)) }
  else .error .wordOutOfRange

/-- `load_data(D)` on a state (R194): `DMem[i] <- trunc(D[i])` for i < m, 0 above. -/
def loadData (data : List Int) (s : State) : Except LoadError State :=
  if s.params.dmemWords < data.length then .error .dataTooLarge
  else if ∀ v ∈ data, -(2 : Int) ^ (s.xlen - 1) ≤ v ∧ v < 2 ^ (s.xlen - 1) then
    .ok { s with dmem := Memory.ofList (data.map (trunc s.xlen)) }
  else .error .valueOutOfRange

/-- An engine in the host's hands, with how far its life has come (R192). This bookkeeping is the host's, not state of
the machine (log 8). -/
structure Engine where
  state : State
  programLoaded : Bool
  dataLoaded : Bool
  started : Bool
deriving DecidableEq, Repr

/-- Reset with chosen parameters (R190). -/
def constructEngine (p : Params) : Except LoadError Engine :=
  if p.Admissible then .ok ⟨State.construct p, false, false, false⟩ else .error .badParameters

/-- What the host may ask before the run (R192). -/
inductive HostRequest where
  | loadProgram (program : List Int)
  | loadData (data : List Int)
  | start
deriving DecidableEq, Repr

/-- One request of the host: `load_program` once, `load_data` at most once, in either order, then one start (R192). -/
def hostRequest (e : Engine) : HostRequest → Except LoadError Engine
  | .loadProgram program =>
    if e.programLoaded || e.started then .error .outOfOrder
    else do
      let s ← loadProgram program e.state
      .ok { e with state := s, programLoaded := true }
  | .loadData data =>
    if e.dataLoaded || e.started then .error .outOfOrder
    else do
      let s ← loadData data e.state
      .ok { e with state := s, dataLoaded := true }
  | .start => if e.started || !e.programLoaded then .error .outOfOrder else .ok { e with started := true }

/-- The host's requests in order; the first that fails ends them. -/
def hostRequests : Engine → List HostRequest → Except LoadError Engine
  | e, [] => .ok e
  | e, r :: rs => do
    let e' ← hostRequest e r
    hostRequests e' rs

end Sys2Proof.Machine
end

