-- ==== Sys2Proof/Machine/Run.lean ====
section
/-! DEFINITION. Runs, step counts and read-back (10_state.md R32, R34; 60_exceptions.md R161, R175;
70_reset_and_hazards.md R198, R202). The count is an observation from outside, not state. -/

namespace Sys2Proof.Machine

/-- What a step adds to the count of executed steps: 1 for a completed or halting step, TERMINATE included (D27),
0 for a step that faulted. -/
def stepCount (after : State) : Nat := if after.status = .faulted then 0 else 1

/-- The end of the run from a state and the number of executed steps, if at most `fuel` steps reach it.
The machine itself has no step bound (R32); the fuel is the executor's. -/
def runFor : Nat → State → Option (State × Nat)
  | 0, s => if s.status = .running then none else some (s, 0)
  | fuel + 1, s =>
    match step s with
    | .next t => (runFor fuel t).map fun r => (r.1, r.2 + stepCount t)
    | .fault _ => some (s, 0)
    | .refused _ => none

/-- The run from `s` ends in `t` after `n` executed steps: steps repeated "while `status = running`" (R32). -/
def EndsIn (s t : State) (n : Nat) : Prop := ∃ fuel, runFor fuel s = some (t, n)

/-- The run from `s` never ends, "an accepted property of this design" (R32). -/
def RunsForever (s : State) : Prop := ∀ fuel, runFor fuel s = none

/-- The offending value as the host recovers it from a stopped engine, from the place the last column of R161 names:
`IMem[pc]`, `pc`, LOAD's `sint(x[src1])` or STORE's `imm`. -/
def State.offending (s : State) : Option StepFault :=
  match s.faultCause with
  | .none => none
  | .invalidOpcodeOp => some (.invalidOpcodeOp (Fields.ofWord (s.word s.pc.toNat)).opcode)
  | .invalidOpcodeReg => some .invalidOpcodeReg
  | .fetchFault => some (.fetchFault s.pc.toNat)
  | .dataAddressFault =>
    match decode (s.word s.pc.toNat) with
    | .ok (.load _ src1) =>
      match regIndex src1 with
      | .ok r => some (.dataAddressFault (loadAddress (s.reg r)))
      | .error _ => none
    | .ok (.store _ imm) => some (.dataAddressFault (storeAddress imm))
    | _ => none

end Sys2Proof.Machine
end

