-- ==== Sys2Proof/Safety.lean ====
section
/-! DEFINITION. The invariant of an engine, what "unchanged" means part by part, and which runs are safe: the terms
in which claims about the machine are stated. -/

namespace Sys2Proof.Machine

namespace State

/-- A register's pattern as a number, `uint(x[r])` (00_scope.md R7, R8). -/
def regNat (s : State) (r : RegIdx) : Nat := uint (s.reg r)

/-- A register's content as a signed integer, `sint(x[r])`. -/
def regInt (s : State) (r : RegIdx) : Int := sint (s.reg r)

/-- A data cell's pattern as a number. -/
def cellNat (s : State) (a : Nat) : Nat := uint (s.cell a)

/-- A data cell's content as a signed integer. -/
def cellInt (s : State) (a : Nat) : Int := sint (s.cell a)

/-- What holds of every engine: its parameters are admissible (00_scope.md R5), `pc` is at most 2^19 (10_state.md
R26), both memories have their canonical form and lie within their capacities (R33), and `fault_cause` is 0 exactly
while no fault has occurred (R29). -/
abbrev Inv (s : State) : Prop :=
  s.params.Admissible ∧ s.pc.toNat ≤ 2 ^ 19 ∧ s.imem.wf ∧ s.imem.within s.params.imemWords ∧ s.dmem.wf ∧
    s.dmem.within s.params.dmemWords ∧ (s.status = .faulted ↔ s.faultCause ≠ .none)

end State

/-- The engine is still the one that was constructed and loaded: same parameters, same instruction memory. -/
abbrev SameBuild (s t : State) : Prop := t.params = s.params ∧ t.imem = s.imem

/-- Both latches are unchanged. -/
abbrev SameLatches (s t : State) : Prop := t.status = s.status ∧ t.faultCause = s.faultCause

/-- Every register holds the same pattern. -/
abbrev SameRegs (s t : State) : Prop := ∀ r : RegIdx, t.regNat r = s.regNat r

/-- Every register but one holds the same pattern. -/
abbrev SameRegsBut (d : RegIdx) (s t : State) : Prop := ∀ r : RegIdx, r ≠ d → t.regNat r = s.regNat r

/-- Every data cell reads as before. -/
abbrev SameData (s t : State) : Prop := ∀ a : Nat, t.cellNat a = s.cellNat a

/-- Every data cell but the one at `a` reads as before. -/
abbrev SameDataBut (a : Nat) (s t : State) : Prop := ∀ b : Nat, b ≠ a → t.cellNat b = s.cellNat b

/-- The data address of an instruction that makes a data access (20_memory.md R51); `none` for one that makes none, and
for a LOAD whose address register does not exist. -/
def dataAddressOf (i : Instr) (s : State) : Option Int :=
  match i with
  | .load _ src1 => if h : src1.toNat < 5 then some (s.regInt ⟨src1.toNat, h⟩) else none
  | .store _ imm => some (imm.toNat : Int)
  | .add _ _ _ => none
  | .jumpIf _ => none
  | .jump _ => none
  | .terminate => none
  | .cmp _ _ => none
  | .inc _ => none
  | .move _ _ => none

/-- The first fault condition that holds of the step about to be made, in the order of 60_exceptions.md R167;
`none` where none holds. It is read off the fetched word and the data address alone, without performing the
instruction. -/
def firstFault (s : State) : FaultCause :=
  if s.params.imemWords ≤ s.pc.toNat then .fetchFault
  else
    match decode (s.word s.pc.toNat) with
    | .error _ => .invalidOpcodeOp
    | .ok i =>
      if i.wf = false then .invalidOpcodeReg
      else
        match dataAddressOf i s with
        | none => .none
        | some a => if 0 ≤ a ∧ a < s.params.dmemWords then .none else .dataAddressFault

/-- `t` is one of the states that the run from `s` passes through. -/
def Reaches (s t : State) : Prop := ∃ k, Host.Core.run Sys2Proof.core k s = .next t

/-- The run from `s` ends normally: "this happens exactly when a TERMINATE has been executed"
(70_reset_and_hazards.md R198). -/
def EndsNormally (s : State) : Prop := ∃ t n, EndsIn s t n ∧ t.status = .halted

/-- The run from `s` ends abnormally. A faulted state is not final (60_exceptions.md R168). -/
def EndsAbnormally (s : State) : Prop := ∃ t n, EndsIn s t n ∧ t.status = .faulted

/-- A safe run: no state it passes through is faulted. It may go on for ever. -/
def SafeRun (s : State) : Prop := ∀ t, Reaches s t → t.status ≠ .faulted

end Sys2Proof.Machine
end

