-- ==== Sys2Proof/Certificates/Slice0/Obligations.lean ====
section
/-! DEFINITION. The statements for the provers. Each docstring names the rule of spec/ it formalises and, where the spec
marks the point as its own decision D<n> or the model chose (log n), says so. Registers and cells are read as the numbers
`regNat`, `regInt`, `cellNat`, `cellInt` of Safety.lean, so that no statement depends on how a state is held. -/

open Sys2Proof Sys2Proof.Machine

/-! ## Encoding (30_encoding.md) -/

/-- Words written out bit by bit from the opcode map R76 and the vectors T1 to T20 of 95_test_vectors.md decode to the
instructions they stand for, non-canonical ones included; opcodes 9 and 15 are rejected. -/
def Obligations.OpcodeMapWordsDecode : Prop :=
  decode 0b00000110000000000000000000000000 = .ok (.load 3 0) ∧
  decode 0b00010100000000000000000000010000 = .ok (.store 2 16) ∧
  decode 0b00100100100110000000000000000000 = .ok (.add 2 2 3) ∧
  decode 0b00110000000001111111111111111111 = .ok (.jumpIf 524287) ∧
  decode 0b01000000000000000000000000000010 = .ok (.jump 2) ∧
  decode 0b01011111111111111111111111111111 = .ok .terminate ∧
  decode 0b01100010000000000000000000000000 = .ok (.cmp 1 0) ∧
  decode 0b01111000000000000000000000000000 = .ok (.inc 4) ∧
  decode 0b10000001110000000000000000000101 = .ok (.move 0 5) ∧
  decode 0b10010000000000000000000000000000 = .error (.undefinedOpcode 9) ∧
  decode 0b11111111111111111111111111111111 = .error (.undefinedOpcode 15)

/-- R73: field extraction is the five bit slices of the word, for every word, and it is the left inverse of `Encode`. -/
def Obligations.FieldExtractionIsSlicesAndInvertsEncode : Prop :=
  (∀ w : InstrWord,
    (Fields.ofWord w).opcode.toNat = w.toNat / 2 ^ 28 ∧
    (Fields.ofWord w).dst.toNat = w.toNat / 2 ^ 25 % 8 ∧
    (Fields.ofWord w).src1.toNat = w.toNat / 2 ^ 22 % 8 ∧
    (Fields.ofWord w).src2.toNat = w.toNat / 2 ^ 19 % 8 ∧
    (Fields.ofWord w).imm.toNat = w.toNat % 2 ^ 19) ∧
  ∀ f : Fields, Fields.ofWord f.encode = f

/-- R72: the five fields cover all 32 bits and none overlaps another (a word is recovered from its fields, and fields from
their word), and no opcode uses both `imm` and a source-register field. -/
def Obligations.FieldsAreDisjointAndCoverTheWord : Prop :=
  (∀ w : InstrWord, (Fields.ofWord w).encode = w) ∧
  (∀ f g : Fields, f.encode = g.encode → f = g) ∧
  ∀ op : Opcode, (shapeOf op).useImm = true → (shapeOf op).useSrc1 = false ∧ (shapeOf op).useSrc2 = false

/-- R83: decoding an encoded instruction gives it back with every operand, and 0 in every unused field; the converse,
that encoding a decoded word gives the word back, holds exactly for canonical words. -/
def Obligations.DecodeInvertsEncodeExactlyOnCanonicalWords : Prop :=
  (∀ i : Instr, decode (encode i) = .ok i ∧ Fields.ofWord (encode i) = i.fields ∧ i.fields.canonical = true) ∧
  ∀ (w : InstrWord) (i : Instr), decode w = .ok i → (encode i = w ↔ (Fields.ofWord w).canonical = true)

/-- The opcode map (R76, R77): a word is an instruction of a row exactly when `w AND mask = match`, and it is rejected
exactly when it is at least `0x90000000`. -/
def Obligations.MaskAndMatchSelectTheInstruction : Prop :=
  (∀ (i : Instr) (w : InstrWord),
    w &&& opcodeMask = i.matchWord ↔ ∃ j, decode w = .ok j ∧ j.matchWord = i.matchWord) ∧
  ∀ w : InstrWord, (∃ e, decode w = .error e) ↔ 0x90000000 ≤ w.toNat

/-- R79 (the spec's decision D9): two words that agree in the opcode and in every field the opcode uses decode alike,
whatever their other bits. -/
def Obligations.UnusedFieldsDoNotAffectDecoding : Prop :=
  ∀ w v : InstrWord,
    (Fields.ofWord w).opcode = (Fields.ofWord v).opcode →
    ((shapeOf (Fields.ofWord w).opcode).useDst = true → (Fields.ofWord w).dst = (Fields.ofWord v).dst) →
    ((shapeOf (Fields.ofWord w).opcode).useSrc1 = true → (Fields.ofWord w).src1 = (Fields.ofWord v).src1) →
    ((shapeOf (Fields.ofWord w).opcode).useSrc2 = true → (Fields.ofWord w).src2 = (Fields.ofWord v).src2) →
    ((shapeOf (Fields.ofWord w).opcode).useImm = true → (Fields.ofWord w).imm = (Fields.ofWord v).imm) →
    decode w = decode v

/-- The decoder block's `illegal` output (10_state.md R36, R77, R78) is set exactly for the words that name no
instruction or name one with a used register field of 5, 6 or 7. -/
def Obligations.DecoderBlockFlagsExactlyIllegalWords : Prop :=
  ∀ w : InstrWord, (decoderBlock w).illegal = true ↔
    (∃ e, decode w = .error e) ∨ ∃ i, decode w = .ok i ∧ i.wf = false

/-! ## Reset (10_state.md R40) and the bit forms of the latches -/

/-- R40: every element of state after reset, for the default parameters of R5. The latches' values are the spec's
decision D11; XLEN = 32 is D1. -/
def Obligations.ResetLeavesZeroEqualRunning : Prop :=
  (∀ r, State.reset.regNat r = 0) ∧ State.reset.pc = 0 ∧ State.reset.flag = .equal ∧
  (∀ a, State.reset.word a = 0) ∧ (∀ a, State.reset.cellNat a = 0) ∧
  State.reset.status = .running ∧ State.reset.faultCause = .none ∧ State.reset.params = ⟨32, 2048, 2048⟩

/-- The invariant holds at reset. -/
def Obligations.ResetSatisfiesInvariant : Prop := State.reset.Inv

/-- R28, R29, R161 (the spec's decisions D15, D11, D12): the codes of the flag, of the status and of the causes are those of
the spec's tables and distinct; the flag and the status never show 3, the cause code never 5, 6 or 7; and the reset values
are all zero bits. -/
def Obligations.LatchBitFormsAreDistinct : Prop :=
  flagBits .equal = 0b00 ∧ flagBits .greater = 0b01 ∧ flagBits .less = 0b10 ∧
  statusBits .running = 0 ∧ statusBits .halted = 1 ∧ statusBits .faulted = 2 ∧
  causeCode .none = 0 ∧ (∀ op, causeCode (causeOf (.invalidOpcodeOp op)) = 1) ∧
  causeCode (causeOf .invalidOpcodeReg) = 2 ∧ (∀ pc, causeCode (causeOf (.fetchFault pc)) = 3) ∧
  (∀ a, causeCode (causeOf (.dataAddressFault a)) = 4) ∧
  (∀ f g, flagBits f = flagBits g → f = g) ∧ (∀ f, flagBits f ≠ 3) ∧
  (∀ a b, statusBits a = statusBits b → a = b) ∧ (∀ a, statusBits a ≠ 3) ∧
  (∀ a b, causeCode a = causeCode b → a = b) ∧ (∀ c, (causeCode c).toNat ≤ 4) ∧
  flagBits State.reset.flag = 0 ∧ statusBits State.reset.status = 0 ∧ causeCode State.reset.faultCause = 0

/-! ## The step (10_state.md R31, 00_scope.md R9) -/

/-- A step of a running engine whose `pc` is inside instruction memory runs the instruction that the word there decodes
to, and adds nothing around it (R31). -/
def Obligations.StepRunsDecodedInstruction : Prop :=
  ∀ (s : State) (i : Instr), s.status = .running → s.pc.toNat < s.params.imemWords →
    decode (s.word s.pc.toNat) = .ok i → step s = exec i s

/-- A word placed at `pc` is the word the next step fetches and runs, and placing it changes no other word and nothing
else (R52; log 7). -/
def Obligations.PlacedWordIsFetchedAndRun : Prop :=
  ∀ (s : State) (w : Nat) (i : Instr), s.imem.wf → s.status = .running → s.pc.toNat < s.params.imemWords →
    decode (BitVec.ofNat 32 w) = .ok i →
    step (s.withFetchWord 32 w) = exec i (s.withFetchWord 32 w) ∧
    (∀ a, a ≠ s.pc.toNat → (s.withFetchWord 32 w).word a = s.word a) ∧
    SameRegs s (s.withFetchWord 32 w) ∧ SameData s (s.withFetchWord 32 w) ∧
    (s.withFetchWord 32 w).pc = s.pc ∧ (s.withFetchWord 32 w).flag = s.flag ∧
    SameLatches s (s.withFetchWord 32 w) ∧ (s.withFetchWord 32 w).params = s.params

/-- R9: an engine takes a step exactly while its status is `running`; a halted or faulted one has none
(the named stops are the model's form of that, log 4), and no step is refused. -/
def Obligations.EngineStepsExactlyWhileRunning : Prop :=
  ∀ s : State, ((∃ t, step s = .next t) ↔ s.status = .running) ∧
    (s.status = .halted → step s = .fault .engineHalted) ∧
    (s.status = .faulted → step s = .fault .engineFaulted) ∧ ∀ r, step s ≠ .refused r

/-- Every instruction, whatever its operands and whatever the state, answers a next state: it completes, halts or takes
its fault (R9, 60_exceptions.md R170). -/
def Obligations.EveryInstructionAnswersNextState : Prop :=
  ∀ (i : Instr) (s : State), ∃ t, exec i s = .next t

/-! ## The nine instructions: each completes, with its result and its frame -/

/-- LOAD (40_memory_move.md R110): with both registers existing and the address inside data memory, the destination
receives the cell; nothing else changes but `pc`. `dst = src1` is covered: the old content is the address. -/
def Obligations.LoadReadsCellAtRegister : Prop :=
  ∀ (s : State) (dst src1 : RegSel) (d r : RegIdx) (a : Nat), dst.toNat = d.val → src1.toNat = r.val →
    s.regInt r = a → a < s.params.dmemWords →
    ∃ t, exec (.load dst src1) s = .next t ∧ t.regNat d = s.cellNat a ∧ t.pc = s.pc + 1 ∧
      SameRegsBut d s t ∧ SameData s t ∧ t.flag = s.flag ∧ SameLatches s t ∧ SameBuild s t

/-- STORE (R111): with the register existing and the address `storeAddress imm` inside data memory, the cell at that
address receives the whole register; no other cell, no register, no flag changes. -/
def Obligations.StoreWritesCellAtImmediate : Prop :=
  ∀ (s : State) (dst : RegSel) (imm : Imm) (r : RegIdx) (a : Nat), s.dmem.wf → dst.toNat = r.val →
    storeAddress imm = a → a < s.params.dmemWords →
    ∃ t, exec (.store dst imm) s = .next t ∧ t.cellNat a = s.regNat r ∧ t.pc = s.pc + 1 ∧
      SameDataBut a s t ∧ SameRegs s t ∧ t.flag = s.flag ∧ SameLatches s t ∧ SameBuild s t

/-- MOVE (R112): the destination receives the 19-bit literal, zero-extended (the spec's decision D3), so that both its
unsigned and its signed reading are the literal; XLEN ≥ 20 is the bound of R5. -/
def Obligations.MoveWritesZeroExtendedLiteral : Prop :=
  ∀ (s : State) (dst : RegSel) (imm : Imm) (d : RegIdx), s.params.Admissible → dst.toNat = d.val →
    ∃ t, exec (.move dst imm) s = .next t ∧ t.regNat d = imm.toNat ∧ t.regInt d = imm.toNat ∧ t.pc = s.pc + 1 ∧
      SameRegsBut d s t ∧ SameData s t ∧ t.flag = s.flag ∧ SameLatches s t ∧ SameBuild s t

/-- ADD (41_alu.md R120): the destination receives the sum of the two patterns modulo 2^XLEN (the wrap is the spec's
decision D2); any registers may coincide; the flag is untouched. -/
def Obligations.AddWritesWrappedSum : Prop :=
  ∀ (s : State) (dst src1 src2 : RegSel) (d a b : RegIdx), dst.toNat = d.val → src1.toNat = a.val →
    src2.toNat = b.val →
    ∃ t, exec (.add dst src1 src2) s = .next t ∧ t.regNat d = (s.regNat a + s.regNat b) % 2 ^ s.xlen ∧
      t.pc = s.pc + 1 ∧ SameRegsBut d s t ∧ SameData s t ∧ t.flag = s.flag ∧ SameLatches s t ∧ SameBuild s t

/-- INC (R121): the register receives its pattern plus one modulo 2^XLEN (D2); the flag is untouched. -/
def Obligations.IncWritesWrappedSuccessor : Prop :=
  ∀ (s : State) (dst : RegSel) (d : RegIdx), dst.toNat = d.val →
    ∃ t, exec (.inc dst) s = .next t ∧ t.regNat d = (s.regNat d + 1) % 2 ^ s.xlen ∧
      t.pc = s.pc + 1 ∧ SameRegsBut d s t ∧ SameData s t ∧ t.flag = s.flag ∧ SameLatches s t ∧ SameBuild s t

/-- CMP (R122): the flag says how the first operand stands to the second as signed integers (the direction of `greater` and
`less` is the spec's decision D4); no register changes. -/
def Obligations.CmpSetsFlagBySignedComparison : Prop :=
  ∀ (s : State) (dst src1 : RegSel) (a b : RegIdx), dst.toNat = a.val → src1.toNat = b.val →
    ∃ t, exec (.cmp dst src1) s = .next t ∧
      (t.flag = .greater ↔ s.regInt b < s.regInt a) ∧ (t.flag = .equal ↔ s.regInt a = s.regInt b) ∧
      (t.flag = .less ↔ s.regInt a < s.regInt b) ∧
      t.pc = s.pc + 1 ∧ SameRegs s t ∧ SameData s t ∧ SameLatches s t ∧ SameBuild s t

/-- JUMP_IF (42_control.md R140): taken to the immediate exactly when the flag is `equal`, else past the instruction;
nothing but `pc` changes. -/
def Obligations.JumpIfGoesToImmediateWhenEqual : Prop :=
  ∀ (s : State) (imm : Imm),
    ∃ t, exec (.jumpIf imm) s = .next t ∧ (s.flag = .equal → t.pc.toNat = imm.toNat) ∧
      (s.flag ≠ .equal → t.pc = s.pc + 1) ∧
      SameRegs s t ∧ SameData s t ∧ t.flag = s.flag ∧ SameLatches s t ∧ SameBuild s t

/-- JUMP (R141, whole): every word of opcode 4 is a JUMP of its low 19 bits, the canonical word is `0x40000000 + imm`; in
every state `pc` becomes the immediate and nothing else changes (so it has no fault, touches no flag and saves no return
address), whatever the address it stands at; a JUMP to its own address changes nothing at all. -/
def Obligations.JumpGoesToImmediate : Prop :=
  (∀ w : InstrWord, (Fields.ofWord w).opcode = 4 → decode w = .ok (.jump (Fields.ofWord w).imm)) ∧
  (∀ imm : Imm, (encode (.jump imm)).toNat = 0x40000000 + imm.toNat) ∧
  ∀ (s : State) (imm : Imm),
    ∃ t, exec (.jump imm) s = .next t ∧ t.pc.toNat = imm.toNat ∧
      SameRegs s t ∧ SameData s t ∧ t.flag = s.flag ∧ SameLatches s t ∧ SameBuild s t ∧
      (imm.toNat = s.pc.toNat → t = s)

/-- TERMINATE (R142): the status becomes `halted`; registers, flag and both memories keep their values. The final `pc` is
the spec's decision D14, on which "a claim should not rest": it is not stated. -/
def Obligations.TerminateHaltsAndKeepsTheRest : Prop :=
  ∀ s : State, ∃ t, exec .terminate s = .next t ∧ t.status = .halted ∧
    SameRegs s t ∧ SameData s t ∧ t.flag = s.flag ∧ t.faultCause = s.faultCause ∧ SameBuild s t

/-! ## Arithmetic (41_alu.md) -/

/-- R123 (the spec's decision D2): ADD's result read as signed is the exact sum where that fits XLEN bits, and differs from
it by exactly 2^XLEN where it does not; the same for INC. -/
def Obligations.OverflowDiffersFromExactSumByTwoToXlen : Prop :=
  ∀ (s : State) (dst src1 src2 : RegSel) (d a b : RegIdx), s.params.Admissible → dst.toNat = d.val →
    src1.toNat = a.val → src2.toNat = b.val →
    ∃ t u, exec (.add dst src1 src2) s = .next t ∧ exec (.inc dst) s = .next u ∧
      (∀ z, z = s.regInt a + s.regInt b →
        (-(2 : Int) ^ (s.xlen - 1) ≤ z → z < 2 ^ (s.xlen - 1) → t.regInt d = z) ∧
        (2 ^ (s.xlen - 1) ≤ z → t.regInt d = z - 2 ^ s.xlen) ∧
        (z < -(2 : Int) ^ (s.xlen - 1) → t.regInt d = z + 2 ^ s.xlen)) ∧
      (s.regInt d + 1 < 2 ^ (s.xlen - 1) → u.regInt d = s.regInt d + 1) ∧
      (2 ^ (s.xlen - 1) ≤ s.regInt d + 1 → u.regInt d = s.regInt d + 1 - 2 ^ s.xlen)

/-- R126: the arithmetic unit's outputs and the laws of them, at every width: addition modulo 2^n, commutative and
associative with identity 0, increment as addition of 1, pass-through, and a comparison of which exactly one outcome
holds. -/
def Obligations.ArithmeticUnitLaws : Prop :=
  ∀ (n : Nat) (a b c : BitVec n),
    (∃ r, (alu .add a b).result = some r ∧ r.toNat = (a.toNat + b.toNat) % 2 ^ n) ∧
    (∃ r, (alu .inc a b).result = some r ∧ r.toNat = (a.toNat + 1) % 2 ^ n) ∧
    (alu .pass a b).result = some b ∧
    aluAdd a b = aluAdd b a ∧ aluAdd (aluAdd a b) c = aluAdd a (aluAdd b c) ∧ aluAdd a 0 = a ∧
    aluInc a = aluAdd a 1 ∧
    (∀ op, ((alu op a b).cmp = .equal ↔ a = b) ∧ ((alu op a b).cmp = .greater ↔ sint b < sint a) ∧
      ((alu op a b).cmp = .less ↔ sint a < sint b) ∧ ((alu op a b).cmp = .greater ↔ (alu op b a).cmp = .less))

/-! ## Faults (60_exceptions.md) -/

/-- R78, R162: an instruction with a used register field of 5, 6 or 7 takes `InvalidOpcode(reg)` before any state is
changed, in every state. -/
def Obligations.BadRegisterFieldFaults : Prop :=
  ∀ (i : Instr) (s : State), i.wf = false → exec i s = .next (s.raise .invalidOpcodeReg)

/-- R164 (the spec's decision D8): LOAD with a negative address or one at or beyond the capacity, and STORE with an address
at or beyond it, take `DataAddressFault` with that address. -/
def Obligations.DataAddressOutsideCapacityFaults : Prop :=
  (∀ (s : State) (dst src1 : RegSel) (d r : RegIdx), dst.toNat = d.val → src1.toNat = r.val →
    (s.regInt r < 0 ∨ (s.params.dmemWords : Int) ≤ s.regInt r) →
    exec (.load dst src1) s = .next (s.raise (.dataAddressFault (s.regInt r)))) ∧
  ∀ (s : State) (dst : RegSel) (imm : Imm) (r : RegIdx), dst.toNat = r.val → s.params.dmemWords ≤ imm.toNat →
    exec (.store dst imm) s = .next (s.raise (.dataAddressFault imm.toNat))

/-- R163 (the spec's decision D7) and R162: a running engine whose `pc` is at or beyond the capacity takes `FetchFault`; one
whose fetched word has an opcode of 9 to 15 takes `InvalidOpcode(op)`. -/
def Obligations.FetchAndOpcodeFaults : Prop :=
  ∀ s : State, s.status = .running →
    (s.params.imemWords ≤ s.pc.toNat → step s = .next (s.raise (.fetchFault s.pc.toNat))) ∧
    (s.pc.toNat < s.params.imemWords → 9 ≤ (s.word s.pc.toNat).toNat / 2 ^ 28 →
      step s = .next (s.raise (.invalidOpcodeOp (Fields.ofWord (s.word s.pc.toNat)).opcode)))

/-- R165 (items 2 to 4 are the spec's decision D11), R166: a step that leaves the engine faulted has changed no register, no
flag, no memory cell and not `pc`; it has set `status` and `fault_cause` and nothing else. -/
def Obligations.FaultingStepChangesOnlyTheLatches : Prop :=
  ∀ s t : State, step s = .next t → t.status = .faulted →
    SameRegs s t ∧ SameData s t ∧ t.flag = s.flag ∧ t.pc = s.pc ∧ SameBuild s t ∧ t.faultCause ≠ .none

/-- R161, R167 (the order is the spec's decision D13): a step of a running engine faults exactly when one of the four
conditions holds, and reports the first of them in the order fetch, opcode, register field, data address; where none
holds it completes or halts and `fault_cause` is untouched. -/
def Obligations.FirstFaultConditionIsReported : Prop :=
  ∀ s : State, s.status = .running →
    ∃ t, step s = .next t ∧
      (firstFault s ≠ .none → t.status = .faulted ∧ t.faultCause = firstFault s) ∧
      (firstFault s = .none → t.status ≠ .faulted ∧ t.faultCause = s.faultCause)

/-- R161, last column, and R165 item 4: what the host recovers from a faulted engine's state is what the faulting step met:
the `pc` or the opcode at which fetching the instruction failed; the bad register field; or, of a well-formed instruction,
the data address it formed, which is outside data memory. The three cases are all the faulting steps there are. -/
def Obligations.OffendingValueIsRecoverable : Prop :=
  ∀ s t : State, step s = .next t → t.status = .faulted →
    (s.params.imemWords ≤ s.pc.toNat → t.offending = some (.fetchFault s.pc.toNat)) ∧
    (s.pc.toNat < s.params.imemWords → 9 ≤ (s.word s.pc.toNat).toNat / 2 ^ 28 →
      ∃ op : Opcode, op.toNat = (s.word s.pc.toNat).toNat / 2 ^ 28 ∧ t.offending = some (.invalidOpcodeOp op)) ∧
    (∀ e, fetchInstr s = .error e → t = s.raise e ∧ t.offending = some e) ∧
    (∀ i, fetchInstr s = .ok i → i.wf = false →
      t = s.raise .invalidOpcodeReg ∧ t.offending = some .invalidOpcodeReg) ∧
    (∀ i, fetchInstr s = .ok i → i.wf = true →
      ∃ a, dataAddressOf i s = some a ∧ ¬ (0 ≤ a ∧ a < s.params.dmemWords) ∧
        t = s.raise (.dataAddressFault a) ∧ t.offending = some (.dataAddressFault a))

/-! ## Whole-machine rules -/

/-- R23: which registers an instruction reads and writes. It changes no register but the one its row writes; it reads at
most two; and a register outside its read column has no influence: changing it beforehand changes nothing of the
outcome but that register, and not even that one where the instruction writes it and does not fault. -/
def Obligations.RegistersReadAndWrittenAsTabulated : Prop :=
  (∀ (i : Instr) (s t : State) (r : RegIdx), exec i s = .next t → i.regWritten.map BitVec.toNat ≠ some r.val →
    t.regNat r = s.regNat r) ∧
  (∀ i : Instr, i.regsRead.length ≤ 2) ∧
  ∀ (i : Instr) (s : State) (r : RegIdx) (v : BitVec s.xlen), r.val ∉ i.regsRead.map BitVec.toNat →
    ∃ t t', exec i s = .next t ∧ exec i (s.setReg r v) = .next t' ∧
      t'.pc = t.pc ∧ t'.flag = t.flag ∧ SameLatches t t' ∧ SameData t t' ∧ SameBuild t t' ∧ SameRegsBut r t t' ∧
      (i.regWritten.map BitVec.toNat = some r.val → s.faultCause = .none → t.faultCause = .none →
        t'.regNat r = t.regNat r)

/-- R27: the flag is written by CMP alone and read by JUMP_IF alone; its reset value is `equal`; and a JUMP_IF executed with
the flag at its reset value is taken. -/
def Obligations.FlagIsWrittenByCmpAndReadByJumpIfOnly : Prop :=
  (∀ (i : Instr) (s t : State), (∀ dst src1, i ≠ .cmp dst src1) → exec i s = .next t → t.flag = s.flag) ∧
  (∀ (i : Instr) (s : State) (f : Flag), (∀ imm, i ≠ .jumpIf imm) →
    ∃ t t', exec i s = .next t ∧ exec i (s.setFlag f) = .next t' ∧
      t'.pc = t.pc ∧ SameRegs t t' ∧ SameData t t' ∧ SameLatches t t' ∧ SameBuild t t' ∧
      ((∃ dst src1, i = .cmp dst src1) → i.wf = true → t'.flag = t.flag)) ∧
  State.reset.flag = .equal ∧
  ∀ (s : State) (imm : Imm), s.flag = State.reset.flag → ∃ t, exec (.jumpIf imm) s = .next t ∧ t.pc.toNat = imm.toNat

/-- 20_memory.md R54, R60: a cell changes only by a STORE whose computed address is that cell's. -/
def Obligations.DataCellChangesOnlyByStoreToIt : Prop :=
  ∀ (i : Instr) (s t : State) (a : Nat), s.dmem.wf → exec i s = .next t →
    (∀ dst imm, i = .store dst imm → storeAddress imm ≠ a) → t.cellNat a = s.cellNat a

/-- R62: a fetch at an address during a run returns the word that was there when the run began; no instruction changes
instruction memory, nor the parameters of the engine. -/
def Obligations.InstructionMemoryIsFixedDuringRun : Prop :=
  ∀ s t : State, Reaches s t → SameBuild s t ∧ ∀ a, t.word a = s.word a

/-- R29, R142, R198: a step leaves the engine halted exactly when the fetched word is a TERMINATE, and leaves it faulted
only with a cause; otherwise it stays running with its cause untouched. -/
def Obligations.StepHaltsExactlyOnTerminate : Prop :=
  ∀ s t : State, step s = .next t →
    (t.status = .halted ↔ s.pc.toNat < s.params.imemWords ∧ decode (s.word s.pc.toNat) = .ok .terminate) ∧
    (t.status = .faulted → t.faultCause ≠ .none) ∧ (t.status ≠ .faulted → t.faultCause = s.faultCause)

/-- R25, R26: in an engine that meets the invariant, a step that does not halt or fault moves `pc` to the next instruction,
without wrapping, or to a jump's immediate; a step that faults leaves it. The final `pc` of a halting step is the
spec's decision D14 and is not stated. -/
def Obligations.PcAdvancesByOneOrToJumpTarget : Prop :=
  ∀ (s t : State) (i : Instr), s.Inv → decode (s.word s.pc.toNat) = .ok i → step s = .next t →
    (t.status = .faulted → t.pc = s.pc) ∧
    (t.status = .running →
      (∀ imm, i = .jump imm → t.pc.toNat = imm.toNat) ∧
      (∀ imm, i = .jumpIf imm → s.flag = .equal → t.pc.toNat = imm.toNat) ∧
      (∀ imm, i = .jumpIf imm → s.flag ≠ .equal → t.pc.toNat = s.pc.toNat + 1) ∧
      ((∀ imm, i ≠ .jump imm) → (∀ imm, i ≠ .jumpIf imm) → t.pc.toNat = s.pc.toNat + 1))

/-- The invariant of Safety.lean (R5, R26, R29, R33; the canonical form is the model's, log 2) is kept by every step, from
every state that meets it. -/
def Obligations.StepKeepsInvariant : Prop := ∀ s t : State, s.Inv → step s = .next t → t.Inv

/-- R143: a jump to a target at or beyond the capacity completes, and the following step takes `FetchFault` with that
target (the fault is the spec's decision D7). -/
def Obligations.JumpBeyondMemoryFaultsAtNextFetch : Prop :=
  ∀ (s : State) (imm : Imm), s.status = .running → s.pc.toNat < s.params.imemWords →
    (decode (s.word s.pc.toNat) = .ok (.jump imm) ∨
      s.flag = .equal ∧ decode (s.word s.pc.toNat) = .ok (.jumpIf imm)) →
    s.params.imemWords ≤ imm.toNat →
    ∃ t, step s = .next t ∧ t.status = .running ∧ t.pc.toNat = imm.toNat ∧
      step t = .next (t.raise (.fetchFault imm.toNat))

/-- R60 (2), R199: a LOAD executed right after a STORE to the same cell, whatever register holds the address and wherever
the value goes, returns the value stored. -/
def Obligations.LoadAfterStoreReturnsStoredValue : Prop :=
  ∀ (s : State) (rs rd ra : RegSel) (imm : Imm) (v d a : RegIdx), s.dmem.wf → rs.toNat = v.val → rd.toNat = d.val →
    ra.toNat = a.val → s.regInt a = imm.toNat → imm.toNat < s.params.dmemWords →
    ∃ t u, exec (.store rs imm) s = .next t ∧ exec (.load rd ra) t = .next u ∧ u.regNat d = s.regNat v

/-- R199: the flag written by CMP is seen by the very next JUMP_IF: it is taken exactly when the two registers held the same
pattern (41_alu.md R126, R140). -/
def Obligations.JumpIfAfterCmpTestsEquality : Prop :=
  ∀ (s : State) (dst src1 : RegSel) (imm : Imm) (a b : RegIdx), dst.toNat = a.val → src1.toNat = b.val →
    ∃ t u, exec (.cmp dst src1) s = .next t ∧ exec (.jumpIf imm) t = .next u ∧
      (s.regNat a = s.regNat b → u.pc.toNat = imm.toNat) ∧ (s.regNat a ≠ s.regNat b → u.pc = s.pc + 1 + 1)

/-- The canonical form of the model's memories (log 2): two memories that read alike at every address are the same data. -/
def Obligations.CanonicalMemoriesThatReadAlikeAreEqual : Prop :=
  ∀ (w : Nat) (m m' : Memory w), m.wf → m'.wf → (∀ a, m.read a = m'.read a) → m = m'

/-! ## Blocks (10_state.md R36 to R39) -/

/-- The machine organised as decoder, register file and arithmetic unit steered by the table R39 makes the same step as
the instruction rules, whatever its undriven ports show (the organisation is the spec's decision D16). -/
def Obligations.DatapathMakesTheSameStep : Prop := ∀ (idle : Nat) (s : State), datapathStep idle s = step s

/-! ## Loading and runs (70_reset_and_hazards.md) -/

/-- R193: a program of at most IMEM_WORDS words in 0 … 2^32-1 is placed from index 0 with 0 above it and nothing else
changed; a longer one fails with `ProgramTooLarge`; an element out of range is refused (the spec's decision D19). -/
def Obligations.LoadProgramPlacesWordsFromZero : Prop :=
  ∀ (program : List Int) (s : State),
    (s.params.imemWords < program.length → loadProgram program s = .error .programTooLarge) ∧
    (program.length ≤ s.params.imemWords → (∃ w ∈ program, w < 0 ∨ 2 ^ 32 ≤ w) →
      loadProgram program s = .error .wordOutOfRange) ∧
    (program.length ≤ s.params.imemWords → (∀ w ∈ program, 0 ≤ w ∧ w < 2 ^ 32) →
      ∃ t, loadProgram program s = .ok t ∧ (∀ i, ((t.word i).toNat : Int) = program.getD i 0) ∧
        SameRegs s t ∧ SameData s t ∧ t.pc = s.pc ∧ t.flag = s.flag ∧ SameLatches s t ∧ t.params = s.params)

/-- R194: data of at most DMEM_WORDS values in the XLEN-bit signed range is placed "verbatim" from index 0 with 0 above it
and nothing else changed; a longer sequence fails with `DataTooLarge`; a value out of range is refused (D19). -/
def Obligations.LoadDataPlacesValuesVerbatim : Prop :=
  ∀ (data : List Int) (s : State), s.params.Admissible →
    (s.params.dmemWords < data.length → loadData data s = .error .dataTooLarge) ∧
    (data.length ≤ s.params.dmemWords →
      (∃ v ∈ data, v < -(2 : Int) ^ (s.xlen - 1) ∨ 2 ^ (s.xlen - 1) ≤ v) →
      loadData data s = .error .valueOutOfRange) ∧
    (data.length ≤ s.params.dmemWords →
      (∀ v ∈ data, -(2 : Int) ^ (s.xlen - 1) ≤ v ∧ v < 2 ^ (s.xlen - 1)) →
      ∃ t, loadData data s = .ok t ∧ (∀ i, t.cellInt i = data.getD i 0) ∧
        SameRegs s t ∧ t.imem = s.imem ∧ t.pc = s.pc ∧ t.flag = s.flag ∧ SameLatches s t ∧ t.params = s.params)

/-- Every engine the host can construct and bring to the start of its run meets the invariant (R190 to R194). -/
def Obligations.LoadedEnginesSatisfyInvariant : Prop :=
  ∀ (p : Params) (e e' : Engine) (requests : List HostRequest), constructEngine p = .ok e →
    hostRequests e requests = .ok e' → e'.state.Inv

/-- R192 (the spec's decision D18): once a program is loaded, no later request loads another; the same for data; and after
the start nothing is loaded and nothing starts again. -/
def Obligations.LoadsAndStartHappenAtMostOnce : Prop :=
  ∀ (e e₁ e₂ : Engine) (later : List HostRequest),
    (∀ p q, hostRequest e (.loadProgram p) = .ok e₁ → hostRequests e₁ later = .ok e₂ →
      hostRequest e₂ (.loadProgram q) = .error .outOfOrder) ∧
    (∀ p q, hostRequest e (.loadData p) = .ok e₁ → hostRequests e₁ later = .ok e₂ →
      hostRequest e₂ (.loadData q) = .error .outOfOrder) ∧
    (hostRequest e .start = .ok e₁ → ∀ r, hostRequest e₁ r = .error .outOfOrder)

/-- R192: "Steps 2 and 3 may be exchanged, since they write different memories." -/
def Obligations.ProgramAndDataLoadsCommute : Prop :=
  ∀ (e e' : Engine) (program data : List Int),
    hostRequests e [.loadProgram program, .loadData data] = .ok e' ↔
      hostRequests e [.loadData data, .loadProgram program] = .ok e'

/-- R32: the machine is deterministic: the end state of a run and its number of executed steps are unique. -/
def Obligations.RunEndAndStepCountAreUnique : Prop :=
  ∀ (s t t' : State) (n n' : Nat), EndsIn s t n → EndsIn s t' n' → t = t' ∧ n = n'

/-- R32, R198: a run ends only in a halted or faulted state, that state is one it passes through, and a run that has no
end goes on for ever. -/
def Obligations.RunEndsHaltedOrFaultedOrNever : Prop :=
  ∀ s : State, (∀ t n, EndsIn s t n → (t.status = .halted ∨ t.status = .faulted) ∧ Reaches s t) ∧
    ((¬ ∃ t n, EndsIn s t n) ↔ RunsForever s) ∧
    (RunsForever s ↔ ∀ t, Reaches s t → t.status = .running)

/-- R140 (corner case 4), R141 (corner case 1), R32: a jump to its own address, and a JUMP_IF to its own address with the flag
`equal`, run for ever. -/
def Obligations.JumpToItselfRunsForever : Prop :=
  ∀ (s : State) (imm : Imm), s.status = .running → s.pc.toNat < s.params.imemWords → imm.toNat = s.pc.toNat →
    (decode (s.word s.pc.toNat) = .ok (.jump imm) ∨
      s.flag = .equal ∧ decode (s.word s.pc.toNat) = .ok (.jumpIf imm)) →
    RunsForever s

/-! ## The assembler (30_encoding.md section 7) -/

/-- R93, R86: the assembled words are, in source order, one canonical word of a well-formed instruction for each instruction
line: of the instruction that the line's tokens spell, each operand in the field that R86's table gives it, with the labels
at the indices that R89 gives them. Determinism is that `compile` is a function. -/
def Obligations.AssembledSequenceFollowsInstructionLines : Prop :=
  ∀ (lines : List Asm.Text) (ws : List InstrWord), Asm.compile lines = .ok ws →
    ws.length = (lines.filter Asm.isInstructionLine).length ∧
    List.Forall₂ (fun line w => ∃ (tokens : List Asm.Text) (i : Instr),
        Asm.classify line = .instruction tokens ∧ Asm.Spells (Asm.labelIndices 0 lines) tokens i ∧
        i.wf = true ∧ w = encode i)
      (lines.filter Asm.isInstructionLine) ws

/-- R89, R91: two passes with patched forward references assemble a text exactly when its labels are unique and every line
can be encoded at once with all labels known, and then to those words: "forward and backward label resolution produce
identical encodings for the same final label position". -/
def Obligations.TwoPassAssemblyEqualsDirectEncoding : Prop :=
  ∀ (lines : List Asm.Text) (ws : List InstrWord),
    Asm.compile lines = .ok ws ↔
      ((Asm.labelIndices 0 lines).map Prod.fst).Nodup ∧ Asm.directWords (Asm.labelIndices 0 lines) lines = .ok ws
end

