-- ==== Sys2Proof/Laws/State.lean ====
section
/-! SUPPORT. The small lemmas of `State`: what each update leaves in each field, and what the readers
`reg`, `cell`, `word`, `regNat`, `regInt`, `cellNat` and `cellInt` answer after it. -/

namespace Sys2Proof.Machine

namespace State

variable (s : State)

@[simp] theorem setReg_params (r : RegIdx) (v : BitVec s.xlen) : (s.setReg r v).params = s.params := rfl
@[simp] theorem setReg_regs (r : RegIdx) (v : BitVec s.xlen) : (s.setReg r v).regs = s.regs.set r v := rfl
@[simp] theorem setReg_pc (r : RegIdx) (v : BitVec s.xlen) : (s.setReg r v).pc = s.pc := rfl
@[simp] theorem setReg_flag (r : RegIdx) (v : BitVec s.xlen) : (s.setReg r v).flag = s.flag := rfl
@[simp] theorem setReg_imem (r : RegIdx) (v : BitVec s.xlen) : (s.setReg r v).imem = s.imem := rfl
@[simp] theorem setReg_dmem (r : RegIdx) (v : BitVec s.xlen) : (s.setReg r v).dmem = s.dmem := rfl
@[simp] theorem setReg_status (r : RegIdx) (v : BitVec s.xlen) : (s.setReg r v).status = s.status := rfl
@[simp] theorem setReg_faultCause (r : RegIdx) (v : BitVec s.xlen) : (s.setReg r v).faultCause = s.faultCause := rfl
@[simp] theorem setReg_cell (r : RegIdx) (v : BitVec s.xlen) (b : Nat) : (s.setReg r v).cell b = s.cell b := rfl
@[simp] theorem setReg_word (r : RegIdx) (v : BitVec s.xlen) (b : Nat) : (s.setReg r v).word b = s.word b := rfl
@[simp] theorem setReg_cellNat (r : RegIdx) (v : BitVec s.xlen) (b : Nat) : (s.setReg r v).cellNat b = s.cellNat b := rfl
@[simp] theorem setReg_cellInt (r : RegIdx) (v : BitVec s.xlen) (b : Nat) : (s.setReg r v).cellInt b = s.cellInt b := rfl

@[simp] theorem setPc_params (t : PcWord) : (s.setPc t).params = s.params := rfl
@[simp] theorem setPc_regs (t : PcWord) : (s.setPc t).regs = s.regs := rfl
@[simp] theorem setPc_pc (t : PcWord) : (s.setPc t).pc = t := rfl
@[simp] theorem setPc_flag (t : PcWord) : (s.setPc t).flag = s.flag := rfl
@[simp] theorem setPc_imem (t : PcWord) : (s.setPc t).imem = s.imem := rfl
@[simp] theorem setPc_dmem (t : PcWord) : (s.setPc t).dmem = s.dmem := rfl
@[simp] theorem setPc_status (t : PcWord) : (s.setPc t).status = s.status := rfl
@[simp] theorem setPc_faultCause (t : PcWord) : (s.setPc t).faultCause = s.faultCause := rfl
@[simp] theorem setPc_reg (t : PcWord) (q : RegIdx) : (s.setPc t).reg q = s.reg q := rfl
@[simp] theorem setPc_cell (t : PcWord) (b : Nat) : (s.setPc t).cell b = s.cell b := rfl
@[simp] theorem setPc_word (t : PcWord) (b : Nat) : (s.setPc t).word b = s.word b := rfl
@[simp] theorem setPc_regNat (t : PcWord) (q : RegIdx) : (s.setPc t).regNat q = s.regNat q := rfl
@[simp] theorem setPc_regInt (t : PcWord) (q : RegIdx) : (s.setPc t).regInt q = s.regInt q := rfl
@[simp] theorem setPc_cellNat (t : PcWord) (b : Nat) : (s.setPc t).cellNat b = s.cellNat b := rfl
@[simp] theorem setPc_cellInt (t : PcWord) (b : Nat) : (s.setPc t).cellInt b = s.cellInt b := rfl

@[simp] theorem nextPc_params : (s.nextPc).params = s.params := rfl
@[simp] theorem nextPc_regs : (s.nextPc).regs = s.regs := rfl
@[simp] theorem nextPc_pc : (s.nextPc).pc = s.pc + 1 := rfl
@[simp] theorem nextPc_flag : (s.nextPc).flag = s.flag := rfl
@[simp] theorem nextPc_imem : (s.nextPc).imem = s.imem := rfl
@[simp] theorem nextPc_dmem : (s.nextPc).dmem = s.dmem := rfl
@[simp] theorem nextPc_status : (s.nextPc).status = s.status := rfl
@[simp] theorem nextPc_faultCause : (s.nextPc).faultCause = s.faultCause := rfl
@[simp] theorem nextPc_reg (q : RegIdx) : (s.nextPc).reg q = s.reg q := rfl
@[simp] theorem nextPc_cell (b : Nat) : (s.nextPc).cell b = s.cell b := rfl
@[simp] theorem nextPc_word (b : Nat) : (s.nextPc).word b = s.word b := rfl
@[simp] theorem nextPc_regNat (q : RegIdx) : (s.nextPc).regNat q = s.regNat q := rfl
@[simp] theorem nextPc_regInt (q : RegIdx) : (s.nextPc).regInt q = s.regInt q := rfl
@[simp] theorem nextPc_cellNat (b : Nat) : (s.nextPc).cellNat b = s.cellNat b := rfl
@[simp] theorem nextPc_cellInt (b : Nat) : (s.nextPc).cellInt b = s.cellInt b := rfl

@[simp] theorem setFlag_params (f : Flag) : (s.setFlag f).params = s.params := rfl
@[simp] theorem setFlag_regs (f : Flag) : (s.setFlag f).regs = s.regs := rfl
@[simp] theorem setFlag_pc (f : Flag) : (s.setFlag f).pc = s.pc := rfl
@[simp] theorem setFlag_flag (f : Flag) : (s.setFlag f).flag = f := rfl
@[simp] theorem setFlag_imem (f : Flag) : (s.setFlag f).imem = s.imem := rfl
@[simp] theorem setFlag_dmem (f : Flag) : (s.setFlag f).dmem = s.dmem := rfl
@[simp] theorem setFlag_status (f : Flag) : (s.setFlag f).status = s.status := rfl
@[simp] theorem setFlag_faultCause (f : Flag) : (s.setFlag f).faultCause = s.faultCause := rfl
@[simp] theorem setFlag_reg (f : Flag) (q : RegIdx) : (s.setFlag f).reg q = s.reg q := rfl
@[simp] theorem setFlag_cell (f : Flag) (b : Nat) : (s.setFlag f).cell b = s.cell b := rfl
@[simp] theorem setFlag_word (f : Flag) (b : Nat) : (s.setFlag f).word b = s.word b := rfl
@[simp] theorem setFlag_regNat (f : Flag) (q : RegIdx) : (s.setFlag f).regNat q = s.regNat q := rfl
@[simp] theorem setFlag_regInt (f : Flag) (q : RegIdx) : (s.setFlag f).regInt q = s.regInt q := rfl
@[simp] theorem setFlag_cellNat (f : Flag) (b : Nat) : (s.setFlag f).cellNat b = s.cellNat b := rfl
@[simp] theorem setFlag_cellInt (f : Flag) (b : Nat) : (s.setFlag f).cellInt b = s.cellInt b := rfl

@[simp] theorem halt_params : (s.halt).params = s.params := rfl
@[simp] theorem halt_regs : (s.halt).regs = s.regs := rfl
@[simp] theorem halt_pc : (s.halt).pc = s.pc := rfl
@[simp] theorem halt_flag : (s.halt).flag = s.flag := rfl
@[simp] theorem halt_imem : (s.halt).imem = s.imem := rfl
@[simp] theorem halt_dmem : (s.halt).dmem = s.dmem := rfl
@[simp] theorem halt_status : (s.halt).status = .halted := rfl
@[simp] theorem halt_faultCause : (s.halt).faultCause = s.faultCause := rfl
@[simp] theorem halt_reg (q : RegIdx) : (s.halt).reg q = s.reg q := rfl
@[simp] theorem halt_cell (b : Nat) : (s.halt).cell b = s.cell b := rfl
@[simp] theorem halt_word (b : Nat) : (s.halt).word b = s.word b := rfl
@[simp] theorem halt_regNat (q : RegIdx) : (s.halt).regNat q = s.regNat q := rfl
@[simp] theorem halt_regInt (q : RegIdx) : (s.halt).regInt q = s.regInt q := rfl
@[simp] theorem halt_cellNat (b : Nat) : (s.halt).cellNat b = s.cellNat b := rfl
@[simp] theorem halt_cellInt (b : Nat) : (s.halt).cellInt b = s.cellInt b := rfl

@[simp] theorem setCell_params (a : Nat) (v : BitVec s.xlen) : (s.setCell a v).params = s.params := rfl
@[simp] theorem setCell_regs (a : Nat) (v : BitVec s.xlen) : (s.setCell a v).regs = s.regs := rfl
@[simp] theorem setCell_pc (a : Nat) (v : BitVec s.xlen) : (s.setCell a v).pc = s.pc := rfl
@[simp] theorem setCell_flag (a : Nat) (v : BitVec s.xlen) : (s.setCell a v).flag = s.flag := rfl
@[simp] theorem setCell_imem (a : Nat) (v : BitVec s.xlen) : (s.setCell a v).imem = s.imem := rfl
@[simp] theorem setCell_dmem (a : Nat) (v : BitVec s.xlen) : (s.setCell a v).dmem = s.dmem.write a v := rfl
@[simp] theorem setCell_status (a : Nat) (v : BitVec s.xlen) : (s.setCell a v).status = s.status := rfl
@[simp] theorem setCell_faultCause (a : Nat) (v : BitVec s.xlen) : (s.setCell a v).faultCause = s.faultCause := rfl
@[simp] theorem setCell_reg (a : Nat) (v : BitVec s.xlen) (q : RegIdx) : (s.setCell a v).reg q = s.reg q := rfl
@[simp] theorem setCell_word (a : Nat) (v : BitVec s.xlen) (b : Nat) : (s.setCell a v).word b = s.word b := rfl
@[simp] theorem setCell_regNat (a : Nat) (v : BitVec s.xlen) (q : RegIdx) : (s.setCell a v).regNat q = s.regNat q := rfl
@[simp] theorem setCell_regInt (a : Nat) (v : BitVec s.xlen) (q : RegIdx) : (s.setCell a v).regInt q = s.regInt q := rfl

@[simp] theorem raise_params (e : StepFault) : (s.raise e).params = s.params := rfl
@[simp] theorem raise_regs (e : StepFault) : (s.raise e).regs = s.regs := rfl
@[simp] theorem raise_pc (e : StepFault) : (s.raise e).pc = s.pc := rfl
@[simp] theorem raise_flag (e : StepFault) : (s.raise e).flag = s.flag := rfl
@[simp] theorem raise_imem (e : StepFault) : (s.raise e).imem = s.imem := rfl
@[simp] theorem raise_dmem (e : StepFault) : (s.raise e).dmem = s.dmem := rfl
@[simp] theorem raise_status (e : StepFault) : (s.raise e).status = .faulted := rfl
@[simp] theorem raise_faultCause (e : StepFault) : (s.raise e).faultCause = causeOf e := rfl
@[simp] theorem raise_reg (e : StepFault) (q : RegIdx) : (s.raise e).reg q = s.reg q := rfl
@[simp] theorem raise_cell (e : StepFault) (b : Nat) : (s.raise e).cell b = s.cell b := rfl
@[simp] theorem raise_word (e : StepFault) (b : Nat) : (s.raise e).word b = s.word b := rfl
@[simp] theorem raise_regNat (e : StepFault) (q : RegIdx) : (s.raise e).regNat q = s.regNat q := rfl
@[simp] theorem raise_regInt (e : StepFault) (q : RegIdx) : (s.raise e).regInt q = s.regInt q := rfl
@[simp] theorem raise_cellNat (e : StepFault) (b : Nat) : (s.raise e).cellNat b = s.cellNat b := rfl
@[simp] theorem raise_cellInt (e : StepFault) (b : Nat) : (s.raise e).cellInt b = s.cellInt b := rfl

/-- Reading a register after a register write. -/
theorem setReg_reg (r : RegIdx) (v : BitVec s.xlen) (q : RegIdx) :
    (s.setReg r v).reg q = if q = r then v else s.reg q := by
  obtain ⟨q, hq⟩ := q
  have h : (s.setReg r v).reg ⟨q, hq⟩ = if r.val = q then v else s.reg ⟨q, hq⟩ :=
    Vector.getElem_set (xs := s.regs) (x := v) r.isLt hq
  simpa only [Fin.ext_iff, eq_comm] using h

@[simp] theorem setReg_reg_same (r : RegIdx) (v : BitVec s.xlen) : (s.setReg r v).reg r = v := by
  rw [setReg_reg, if_pos rfl]

@[simp] theorem setReg_regNat_same (r : RegIdx) (v : BitVec s.xlen) : (s.setReg r v).regNat r = uint v :=
  congrArg uint (setReg_reg_same s r v)

@[simp] theorem setReg_regInt_same (r : RegIdx) (v : BitVec s.xlen) : (s.setReg r v).regInt r = sint v :=
  congrArg sint (setReg_reg_same s r v)

theorem setReg_reg_other (r : RegIdx) (v : BitVec s.xlen) {q : RegIdx} (h : q ≠ r) :
    (s.setReg r v).reg q = s.reg q := by
  rw [setReg_reg, if_neg h]

theorem setReg_regNat_other (r : RegIdx) (v : BitVec s.xlen) {q : RegIdx} (h : q ≠ r) :
    (s.setReg r v).regNat q = s.regNat q :=
  congrArg uint (setReg_reg_other s r v h)

end State

end Sys2Proof.Machine
end

