-- ==== Sys2Proof/Laws/Memory.lean ====
section
/-! SUPPORT. The laws of a memory: read after write, and that every memory operation keeps the canonical form and
the capacity. -/

namespace Sys2Proof.Machine

namespace Memory

variable {w : Nat}

@[simp] theorem read_nil (a : Nat) : read ([] : Memory w) a = 0 := rfl

/-- The memory at reset has the canonical form. -/
theorem wf_nil : wf ([] : Memory w) := ⟨List.Pairwise.nil, fun _ h => nomatch h⟩

theorem within_nil (cap : Nat) : within ([] : Memory w) cap := fun _ h => nomatch h

theorem read_cons (x : Nat × BitVec w) (m : Memory w) (a : Nat) :
    read (x :: m) a = if a = x.1 then x.2 else read m a := rfl

/-- An address below every listed one reads as 0. -/
theorem read_eq_zero_of_lt {m : Memory w} {a : Nat} (h : ∀ x ∈ m, a < x.1) : read m a = 0 := by
  induction m with
  | nil => rfl
  | cons x m ih =>
    have hx := h x List.mem_cons_self
    rw [read_cons, if_neg (by omega), ih fun y hy => h y (List.mem_cons_of_mem _ hy)]

/-- What `put` reads as, where nothing of the rest is listed at its address. -/
theorem read_put {m : Memory w} {a : Nat} (v : BitVec w) (h : read m a = 0) (b : Nat) :
    read (put a v m) b = if b = a then v else read m b := by
  unfold put
  split
  · next hv => split <;> simp_all
  · rfl

/-- The whole effect of a write: the addressed entry, and no other. -/
theorem read_write {m : Memory w} (hm : m.Pairwise fun x y => x.1 < y.1) (a : Nat) (v : BitVec w) (b : Nat) :
    read (write m a v) b = if b = a then v else read m b := by
  induction m with
  | nil => exact read_put v rfl b
  | cons x m ih =>
    obtain ⟨hx, hm'⟩ := List.pairwise_cons.mp hm
    obtain ⟨k, u⟩ := x
    simp only [write]
    split
    · next hlt =>
      refine read_put v (read_eq_zero_of_lt ?_) b
      rintro y (_ | ⟨_, hy⟩)
      · exact hlt
      · exact hlt.trans (hx y hy)
    · split
      · next heq =>
        subst heq
        rw [read_put v (read_eq_zero_of_lt hx) b, read_cons]
        split <;> simp_all
      · simp only [read_cons, ih hm']
        split <;> split <;> simp_all

theorem read_write_same {m : Memory w} (hm : m.Pairwise fun x y => x.1 < y.1) (a : Nat) (v : BitVec w) :
    read (write m a v) a = v := by
  rw [read_write hm, if_pos rfl]

theorem read_write_other {m : Memory w} (hm : m.Pairwise fun x y => x.1 < y.1) {a b : Nat} (v : BitVec w) (h : b ≠ a) :
    read (write m a v) b = read m b := by
  rw [read_write hm, if_neg h]

theorem mem_put {m : Memory w} {a : Nat} {v : BitVec w} {x : Nat × BitVec w} (h : x ∈ put a v m) :
    x = (a, v) ∧ v ≠ 0 ∨ x ∈ m := by
  unfold put at h
  split at h
  · exact .inr h
  · next hv =>
    rcases List.mem_cons.mp h with rfl | h
    · exact .inl ⟨rfl, hv⟩
    · exact .inr h

/-- A write lists nothing but the entry written and what was listed. -/
theorem mem_write {m : Memory w} {a : Nat} {v : BitVec w} {x : Nat × BitVec w} (h : x ∈ write m a v) :
    x = (a, v) ∧ v ≠ 0 ∨ x ∈ m := by
  induction m with
  | nil => exact mem_put h
  | cons y m ih =>
    obtain ⟨k, u⟩ := y
    simp only [write] at h
    split at h
    · exact mem_put h
    · split at h
      · exact (mem_put h).imp_right (List.mem_cons_of_mem _)
      · rcases List.mem_cons.mp h with rfl | h
        · exact .inr List.mem_cons_self
        · exact (ih h).imp_right (List.mem_cons_of_mem _)

theorem pairwise_put {m : Memory w} {a : Nat} {v : BitVec w} (hm : m.Pairwise fun x y => x.1 < y.1)
    (h : ∀ x ∈ m, a < x.1) : (put a v m).Pairwise fun x y => x.1 < y.1 := by
  unfold put
  split
  · exact hm
  · exact List.pairwise_cons.mpr ⟨h, hm⟩

theorem pairwise_write {m : Memory w} (hm : m.Pairwise fun x y => x.1 < y.1) (a : Nat) (v : BitVec w) :
    (write m a v).Pairwise fun x y => x.1 < y.1 := by
  induction m with
  | nil => exact pairwise_put hm (by simp)
  | cons x m ih =>
    obtain ⟨hx, hm'⟩ := List.pairwise_cons.mp hm
    obtain ⟨k, u⟩ := x
    simp only [write]
    split
    · next hlt =>
      refine pairwise_put hm ?_
      rintro y (_ | ⟨_, hy⟩)
      · exact hlt
      · exact hlt.trans (hx y hy)
    · split
      · next heq => exact pairwise_put hm' fun y hy => heq ▸ hx y hy
      · refine List.pairwise_cons.mpr ⟨fun y hy => ?_, ih hm'⟩
        rcases mem_write hy with ⟨rfl, -⟩ | hy
        · dsimp; omega
        · exact hx y hy

/-- A write keeps the canonical form. -/
theorem wf_write {m : Memory w} (hm : m.wf) (a : Nat) (v : BitVec w) : (write m a v).wf := by
  refine ⟨pairwise_write hm.1 a v, fun x hx => ?_⟩
  rcases mem_write hx with ⟨rfl, hv⟩ | hx
  · exact hv
  · exact hm.2 x hx

/-- A write inside the capacity stays inside it. -/
theorem within_write {m : Memory w} {cap a : Nat} (hm : m.within cap) (ha : a < cap) (v : BitVec w) :
    (write m a v).within cap := by
  intro x hx
  rcases mem_write hx with ⟨rfl, -⟩ | hx
  · exact ha
  · exact hm x hx

/-- What a load from index `k` lists. -/
theorem mem_ofListFrom {vs : List (BitVec w)} {k : Nat} {x : Nat × BitVec w} (h : x ∈ ofListFrom k vs) :
    k ≤ x.1 ∧ x.1 < k + vs.length ∧ x.2 ≠ 0 := by
  induction vs generalizing k with
  | nil => simp [ofListFrom] at h
  | cons v vs ih =>
    rcases mem_put h with ⟨rfl, hv⟩ | h
    · simpa using hv
    · obtain ⟨h1, h2, h3⟩ := ih h
      simp only [List.length_cons]
      exact ⟨by omega, by omega, h3⟩

theorem pairwise_ofListFrom (k : Nat) (vs : List (BitVec w)) : (ofListFrom k vs).Pairwise fun x y => x.1 < y.1 := by
  induction vs generalizing k with
  | nil => exact List.Pairwise.nil
  | cons v vs ih => exact pairwise_put (ih (k + 1)) fun x hx => (mem_ofListFrom hx).1

/-- A loaded memory has the canonical form. -/
theorem wf_ofList (vs : List (BitVec w)) : (ofList vs).wf :=
  ⟨pairwise_ofListFrom 0 vs, fun _ hx => (mem_ofListFrom hx).2.2⟩

/-- A loaded memory lies within a capacity that its sequence does not exceed. -/
theorem within_ofList {vs : List (BitVec w)} {cap : Nat} (h : vs.length ≤ cap) : (ofList vs).within cap := by
  intro x hx
  have := (mem_ofListFrom hx).2.1
  omega

theorem read_ofListFrom (k : Nat) (vs : List (BitVec w)) (a : Nat) :
    read (ofListFrom k vs) a = if k ≤ a then vs.getD (a - k) 0 else 0 := by
  induction vs generalizing k with
  | nil => simp [ofListFrom]
  | cons v vs ih =>
    rw [ofListFrom, read_put v (read_eq_zero_of_lt fun x hx => (mem_ofListFrom hx).1) a, ih]
    rcases Nat.lt_trichotomy a k with h | rfl | h
    · rw [if_neg (by omega), if_neg (by omega), if_neg (by omega)]
    · simp
    · obtain ⟨n, rfl⟩ : ∃ n, a = k + (n + 1) := ⟨a - k - 1, by omega⟩
      rw [if_neg (by omega), if_pos (by omega), if_pos (by omega), Nat.add_sub_cancel_left,
        show k + (n + 1) - (k + 1) = n by omega, List.getD_cons_succ]

/-- What a loaded memory reads as: the sequence from index 0, and 0 above it. -/
theorem read_ofList (vs : List (BitVec w)) (a : Nat) : read (ofList vs) a = vs.getD a 0 := by
  rw [ofList, read_ofListFrom, if_pos (Nat.zero_le a), Nat.sub_zero]

end Memory

namespace State

variable (s : State)

/-- A data cell after a write, in a state whose data memory has its canonical form. -/
theorem setCell_cell (h : s.dmem.wf) (a : Nat) (v : BitVec s.xlen) (b : Nat) :
    (s.setCell a v).cell b = if b = a then v else s.cell b :=
  Memory.read_write h.1 a v b

theorem setCell_cellNat_same (h : s.dmem.wf) (a : Nat) (v : BitVec s.xlen) :
    (s.setCell a v).cellNat a = uint v :=
  congrArg uint (Memory.read_write_same h.1 a v)

theorem setCell_cellNat_other (h : s.dmem.wf) {a b : Nat} (v : BitVec s.xlen) (hb : b ≠ a) :
    (s.setCell a v).cellNat b = s.cellNat b :=
  congrArg uint (Memory.read_write_other h.1 v hb)

end State

end Sys2Proof.Machine
end

