-- ==== Sys2Proof/Laws/Ops.lean ====
section
/-! SUPPORT. One lemma per shared operation that says everything it can answer, and the inversion of each meaning and
of the step: what a next state is. Proofs cite these instead of unfolding the machine. -/

namespace Sys2Proof.Machine

/-! ## Number readings (00_scope.md R7) -/

/-- `sint` is the library's two's complement reading. -/
theorem sint_eq_toInt {n : Nat} (v : BitVec n) : sint v = v.toInt := by
  have hv := v.isLt
  rw [sint, BitVec.toInt_eq_toNat_cond]
  cases n with
  | zero => simp at hv; simp [hv]
  | succ n =>
    rw [Nat.add_sub_cancel]
    by_cases h : v.toNat < 2 ^ n
    · rw [if_pos h, if_pos (by rw [pow_succ]; omega)]
    · rw [if_neg h, if_neg (by rw [pow_succ]; omega)]; push_cast; rfl

/-- A truncated integer's pattern is its non-negative remainder. -/
theorem uint_trunc (n : Nat) (z : Int) : (uint (trunc n z) : Int) = z % 2 ^ n := by
  have h : (0 : Int) ≤ z % 2 ^ n := Int.emod_nonneg _ (by positivity)
  have h' : z % 2 ^ n < 2 ^ n := Int.emod_lt_of_pos _ (by positivity)
  rw [uint, trunc, BitVec.toNat_ofNat, Nat.mod_eq_of_lt (by zify; omega)]
  omega

/-- `trunc` is the library's truncation of an integer. -/
theorem trunc_eq_ofInt (n : Nat) (z : Int) : trunc n z = BitVec.ofInt n z := by
  apply BitVec.eq_of_toNat_eq
  have h : (0 : Int) ≤ z % 2 ^ n := Int.emod_nonneg _ (by positivity)
  have h' : z % 2 ^ n < 2 ^ n := Int.emod_lt_of_pos _ (by positivity)
  rw [trunc, BitVec.toNat_ofNat, BitVec.toNat_ofInt, Nat.mod_eq_of_lt]
  · push_cast; rfl
  · zify; omega

/-- The pattern of a truncated sum does not depend on how its operands are read (41_alu.md R120 corner case 4). -/
theorem aluAdd_eq {n : Nat} (a b : BitVec n) : aluAdd a b = a + b := by
  rw [aluAdd, trunc_eq_ofInt, sint_eq_toInt, sint_eq_toInt, BitVec.ofInt_add, BitVec.ofInt_toInt, BitVec.ofInt_toInt]

theorem aluInc_eq {n : Nat} (a : BitVec n) : aluInc a = a + 1 := by
  rw [aluInc, trunc_eq_ofInt, sint_eq_toInt, BitVec.ofInt_add, BitVec.ofInt_toInt]
  congr 1

/-- Zero extension keeps the number where the target is wide enough. -/
theorem uint_zext {m N : Nat} (v : BitVec m) (h : m ≤ N) : uint (zext N v) = uint v := by
  have hv := v.isLt
  have : 2 ^ m ≤ 2 ^ N := Nat.pow_le_pow_right (by decide) h
  rw [uint, uint, zext, BitVec.toNat_ofNat, Nat.mod_eq_of_lt (by omega)]

/-! ## The primitives -/

@[simp] theorem ok_bind {ε α β : Type} (a : α) (f : α → Except ε β) : (Except.ok a >>= f) = f a := rfl

@[simp] theorem error_bind {ε α β : Type} (e : ε) (f : α → Except ε β) : (Except.error e >>= f) = .error e := rfl

/-- A bind answers ok exactly when both of its parts do. -/
theorem bind_eq_ok {ε α β : Type} {x : Except ε α} {f : α → Except ε β} {b : β} :
    (x >>= f) = .ok b ↔ ∃ a, x = .ok a ∧ f a = .ok b := by
  cases x <;> simp

/-- A bind fails exactly when one of its parts does. -/
theorem bind_eq_error {ε α β : Type} {x : Except ε α} {f : α → Except ε β} {e : ε} :
    (x >>= f) = .error e ↔ x = .error e ∨ ∃ a, x = .ok a ∧ f a = .error e := by
  cases x <;> simp

/-- A select names register k exactly when its number is k. -/
theorem regIndex_eq_ok {r : RegSel} {k : RegIdx} : regIndex r = .ok k ↔ r.toNat = k.val := by
  unfold regIndex
  split
  · next h => simp [Fin.ext_iff]
  · next h => simp; omega

/-- A select fails exactly when it is 5, 6 or 7. -/
theorem regIndex_eq_error {r : RegSel} {e : StepFault} :
    regIndex r = .error e ↔ 5 ≤ r.toNat ∧ e = .invalidOpcodeReg := by
  unfold regIndex
  split
  · next h => simp; omega
  · next h => simp [eq_comm]; omega

/-- A data address is an index exactly when it is inside the capacity. -/
theorem dataIndex_eq_ok {s : State} {a : Int} {i : Nat} :
    dataIndex s a = .ok i ↔ a = i ∧ i < s.params.dmemWords := by
  unfold dataIndex
  split
  · next h => simp only [Except.ok.injEq]; omega
  · next h => simp only [reduceCtorEq, false_iff]; omega

theorem dataIndex_eq_error {s : State} {a : Int} {e : StepFault} :
    dataIndex s a = .error e ↔ ¬ (0 ≤ a ∧ a < s.params.dmemWords) ∧ e = .dataAddressFault a := by
  unfold dataIndex
  split
  · next h => simp [h]
  · next h => simp [h, eq_comm]

theorem memRead_eq_ok {s : State} {a : Int} {v : BitVec s.xlen} :
    memRead s a = .ok v ↔ ∃ i : Nat, a = i ∧ i < s.params.dmemWords ∧ v = s.cell i := by
  simp only [memRead, bind_eq_ok, dataIndex_eq_ok, Except.ok.injEq, and_assoc, @eq_comm _ v]

theorem memRead_eq_error {s : State} {a : Int} {e : StepFault} :
    memRead s a = .error e ↔ ¬ (0 ≤ a ∧ a < s.params.dmemWords) ∧ e = .dataAddressFault a := by
  simp [memRead, bind_eq_error, dataIndex_eq_error]

theorem memWrite_eq_ok {s t : State} {a : Int} {v : BitVec s.xlen} :
    memWrite s a v = .ok t ↔ ∃ i : Nat, a = i ∧ i < s.params.dmemWords ∧ t = s.setCell i v := by
  simp only [memWrite, bind_eq_ok, dataIndex_eq_ok, Except.ok.injEq, and_assoc, @eq_comm _ t]

theorem memWrite_eq_error {s : State} {a : Int} {v : BitVec s.xlen} {e : StepFault} :
    memWrite s a v = .error e ↔ ¬ (0 ≤ a ∧ a < s.params.dmemWords) ∧ e = .dataAddressFault a := by
  simp [memWrite, bind_eq_error, dataIndex_eq_error]

theorem fetch_eq_ok {s : State} {w : InstrWord} :
    fetch s = .ok w ↔ s.pc.toNat < s.params.imemWords ∧ w = s.word s.pc.toNat := by
  unfold fetch
  split <;> simp_all [eq_comm]

theorem fetch_eq_error {s : State} {e : StepFault} :
    fetch s = .error e ↔ s.params.imemWords ≤ s.pc.toNat ∧ e = .fetchFault s.pc.toNat := by
  unfold fetch
  split
  · next h => simp; omega
  · next h => simp [eq_comm]; omega

theorem decodeFetched_eq_ok {w : InstrWord} {i : Instr} : decodeFetched w = .ok i ↔ decode w = .ok i := by
  unfold decodeFetched
  cases decode w <;> simp

theorem decodeFetched_eq_error {w : InstrWord} {e : StepFault} :
    decodeFetched w = .error e ↔ ∃ op, decode w = .error (.undefinedOpcode op) ∧ e = .invalidOpcodeOp op := by
  unfold decodeFetched
  rcases decode w with ⟨⟨op⟩⟩ | i <;> simp [eq_comm]

/-- Fetch and decode answer an instruction exactly when `pc` is inside instruction memory and its word decodes. -/
theorem fetchInstr_eq_ok {s : State} {i : Instr} :
    fetchInstr s = .ok i ↔ s.pc.toNat < s.params.imemWords ∧ decode (s.word s.pc.toNat) = .ok i := by
  simp only [fetchInstr, bind_eq_ok, fetch_eq_ok, decodeFetched_eq_ok]
  constructor
  · rintro ⟨_, ⟨h, rfl⟩, hd⟩; exact ⟨h, hd⟩
  · rintro ⟨h, hd⟩; exact ⟨_, ⟨h, rfl⟩, hd⟩

theorem fetchInstr_eq_error {s : State} {e : StepFault} :
    fetchInstr s = .error e ↔ (s.params.imemWords ≤ s.pc.toNat ∧ e = .fetchFault s.pc.toNat) ∨
      s.pc.toNat < s.params.imemWords ∧
        ∃ op, decode (s.word s.pc.toNat) = .error (.undefinedOpcode op) ∧ e = .invalidOpcodeOp op := by
  simp only [fetchInstr, bind_eq_error, fetch_eq_ok, fetch_eq_error, decodeFetched_eq_error]
  constructor
  · rintro (h | ⟨_, ⟨h, rfl⟩, hd⟩)
    · exact .inl h
    · exact .inr ⟨h, hd⟩
  · rintro (h | ⟨h, hd⟩)
    · exact .inl h
    · exact .inr ⟨_, ⟨h, rfl⟩, hd⟩

@[simp] theorem settle_ok (s t : State) : settle s (.ok t) = .next t := rfl

@[simp] theorem settle_error (s : State) (e : StepFault) : settle s (.error e) = .next (s.raise e) := rfl

/-- The end of an instruction is its writes or its fault, and always a next state. -/
theorem settle_eq_next {s t : State} {x : Except StepFault State} :
    settle s x = .next t ↔ x = .ok t ∨ ∃ e, x = .error e ∧ t = s.raise e := by
  cases x <;> simp [settle, eq_comm]

/-! ## The meanings, inverted -/

theorem execLoad_next {dst src1 : RegSel} {s t : State} (h : execLoad dst src1 s = .next t) :
    (∃ d r : RegIdx, ∃ i : Nat, dst.toNat = d.val ∧ src1.toNat = r.val ∧ sint (s.reg r) = i ∧
      i < s.params.dmemWords ∧ t = (s.setReg d (s.cell i)).nextPc) ∨
    ∃ e, t = s.raise e ∧ (e = .invalidOpcodeReg ∧ (5 ≤ dst.toNat ∨ 5 ≤ src1.toNat) ∨
      ∃ d r : RegIdx, dst.toNat = d.val ∧ src1.toNat = r.val ∧
        ¬ (0 ≤ sint (s.reg r) ∧ sint (s.reg r) < s.params.dmemWords) ∧ e = .dataAddressFault (sint (s.reg r))) := by
  simp only [execLoad, settle_eq_next, bind_eq_ok, bind_eq_error, regIndex_eq_ok, regIndex_eq_error, memRead_eq_ok,
    memRead_eq_error, Except.ok.injEq, loadAddress, aluPass] at h
  rcases h with ⟨d, hd, r, hr, v, ⟨i, hi, hc, rfl⟩, rfl⟩ | ⟨e, he, rfl⟩
  · exact .inl ⟨d, r, i, hd, hr, hi, hc, rfl⟩
  · refine .inr ⟨e, rfl, ?_⟩
    rcases he with ⟨h, rfl⟩ | ⟨d, hd, ⟨h, rfl⟩ | ⟨r, hr, h⟩⟩
    · exact .inl ⟨rfl, .inl h⟩
    · exact .inl ⟨rfl, .inr h⟩
    · rcases h with ⟨h, rfl⟩ | ⟨_, _, h⟩
      · exact .inr ⟨d, r, hd, hr, h, rfl⟩
      · cases h

theorem execStore_next {dst : RegSel} {imm : Imm} {s t : State} (h : execStore dst imm s = .next t) :
    (∃ r : RegIdx, dst.toNat = r.val ∧ imm.toNat < s.params.dmemWords ∧
      t = (s.setCell imm.toNat (s.reg r)).nextPc) ∨
    ∃ e, t = s.raise e ∧ (e = .invalidOpcodeReg ∧ 5 ≤ dst.toNat ∨
      s.params.dmemWords ≤ imm.toNat ∧ dst.toNat < 5 ∧ e = .dataAddressFault imm.toNat) := by
  simp only [execStore, settle_eq_next, bind_eq_ok, bind_eq_error, regIndex_eq_ok, regIndex_eq_error, memWrite_eq_ok,
    memWrite_eq_error, Except.ok.injEq, storeAddress, uint] at h
  rcases h with ⟨r, hr, u, ⟨i, hi, hc, rfl⟩, rfl⟩ | ⟨e, he, rfl⟩
  · obtain rfl : imm.toNat = i := by omega
    exact .inl ⟨r, hr, hc, rfl⟩
  · refine .inr ⟨e, rfl, ?_⟩
    rcases he with ⟨h, rfl⟩ | ⟨r, hr, ⟨h, rfl⟩ | ⟨_, _, h⟩⟩
    · exact .inl ⟨rfl, h⟩
    · exact .inr ⟨by omega, by omega, rfl⟩
    · cases h

theorem execMove_next {dst : RegSel} {imm : Imm} {s t : State} (h : execMove dst imm s = .next t) :
    (∃ d : RegIdx, dst.toNat = d.val ∧ t = (s.setReg d (zext s.xlen imm)).nextPc) ∨
    5 ≤ dst.toNat ∧ t = s.raise .invalidOpcodeReg := by
  simp only [execMove, settle_eq_next, bind_eq_ok, bind_eq_error, regIndex_eq_ok, regIndex_eq_error,
    Except.ok.injEq, moveLiteral, aluPass] at h
  rcases h with ⟨d, hd, rfl⟩ | ⟨e, ⟨h, rfl⟩ | ⟨_, _, h⟩, rfl⟩
  · exact .inl ⟨d, hd, rfl⟩
  · exact .inr ⟨h, rfl⟩
  · cases h

theorem execAdd_next {dst src1 src2 : RegSel} {s t : State} (h : execAdd dst src1 src2 s = .next t) :
    (∃ d a b : RegIdx, dst.toNat = d.val ∧ src1.toNat = a.val ∧ src2.toNat = b.val ∧
      t = (s.setReg d (aluAdd (s.reg a) (s.reg b))).nextPc) ∨
    (5 ≤ dst.toNat ∨ 5 ≤ src1.toNat ∨ 5 ≤ src2.toNat) ∧ t = s.raise .invalidOpcodeReg := by
  simp only [execAdd, settle_eq_next, bind_eq_ok, bind_eq_error, regIndex_eq_ok, regIndex_eq_error,
    Except.ok.injEq] at h
  rcases h with ⟨d, hd, a, ha, b, hb, rfl⟩ | ⟨e, ⟨h, rfl⟩ | ⟨d, hd, ⟨h, rfl⟩ | ⟨a, ha, ⟨h, rfl⟩ | ⟨_, _, h⟩⟩⟩, rfl⟩
  · exact .inl ⟨d, a, b, hd, ha, hb, rfl⟩
  · exact .inr ⟨.inl h, rfl⟩
  · exact .inr ⟨.inr (.inl h), rfl⟩
  · exact .inr ⟨.inr (.inr h), rfl⟩
  · cases h

theorem execInc_next {dst : RegSel} {s t : State} (h : execInc dst s = .next t) :
    (∃ d : RegIdx, dst.toNat = d.val ∧ t = (s.setReg d (aluInc (s.reg d))).nextPc) ∨
    5 ≤ dst.toNat ∧ t = s.raise .invalidOpcodeReg := by
  simp only [execInc, settle_eq_next, bind_eq_ok, bind_eq_error, regIndex_eq_ok, regIndex_eq_error,
    Except.ok.injEq] at h
  rcases h with ⟨d, hd, rfl⟩ | ⟨e, ⟨h, rfl⟩ | ⟨_, _, h⟩, rfl⟩
  · exact .inl ⟨d, hd, rfl⟩
  · exact .inr ⟨h, rfl⟩
  · cases h

theorem execCmp_next {dst src1 : RegSel} {s t : State} (h : execCmp dst src1 s = .next t) :
    (∃ a b : RegIdx, dst.toNat = a.val ∧ src1.toNat = b.val ∧
      t = (s.setFlag (compareSigned (s.reg a) (s.reg b))).nextPc) ∨
    (5 ≤ dst.toNat ∨ 5 ≤ src1.toNat) ∧ t = s.raise .invalidOpcodeReg := by
  simp only [execCmp, settle_eq_next, bind_eq_ok, bind_eq_error, regIndex_eq_ok, regIndex_eq_error,
    Except.ok.injEq] at h
  rcases h with ⟨a, ha, b, hb, rfl⟩ | ⟨e, ⟨h, rfl⟩ | ⟨a, ha, ⟨h, rfl⟩ | ⟨_, _, h⟩⟩, rfl⟩
  · exact .inl ⟨a, b, ha, hb, rfl⟩
  · exact .inr ⟨.inl h, rfl⟩
  · exact .inr ⟨.inr h, rfl⟩
  · cases h

/-- Everything a next state of any instruction can be, register by register and cell by cell. -/
theorem exec_next_cases {i : Instr} {s t : State} (h : exec i s = .next t) :
    (∃ d v, t = (s.setReg d v).nextPc) ∨ (∃ a v, a < s.params.dmemWords ∧ t = (s.setCell a v).nextPc) ∨
      (∃ f, t = (s.setFlag f).nextPc) ∨ (∃ imm, t = s.setPc (jumpTarget imm)) ∨ t = s.nextPc ∨
      t = s.nextPc.halt ∨ ∃ e, t = s.raise e := by
  cases i with
  | load dst src1 =>
    obtain ⟨d, _, _, _, _, _, _, rfl⟩ | ⟨e, rfl, _⟩ := execLoad_next h
    · exact .inl ⟨d, _, rfl⟩
    · simp
  | store dst imm =>
    obtain ⟨_, _, hc, rfl⟩ | ⟨e, rfl, _⟩ := execStore_next h
    · exact .inr (.inl ⟨_, _, hc, rfl⟩)
    · simp
  | add dst src1 src2 =>
    obtain ⟨d, _, _, _, _, _, rfl⟩ | ⟨_, rfl⟩ := execAdd_next h
    · exact .inl ⟨d, _, rfl⟩
    · simp
  | jumpIf imm =>
    cases h
    split
    · exact .inr (.inr (.inr (.inl ⟨imm, rfl⟩)))
    · simp
  | jump imm =>
    cases h
    exact .inr (.inr (.inr (.inl ⟨imm, rfl⟩)))
  | terminate =>
    cases h
    simp
  | cmp dst src1 =>
    obtain ⟨_, _, _, _, rfl⟩ | ⟨_, rfl⟩ := execCmp_next h
    · exact .inr (.inr (.inl ⟨_, rfl⟩))
    · simp
  | inc dst =>
    obtain ⟨d, _, rfl⟩ | ⟨_, rfl⟩ := execInc_next h
    · exact .inl ⟨d, _, rfl⟩
    · simp
  | move dst imm =>
    obtain ⟨d, _, rfl⟩ | ⟨_, rfl⟩ := execMove_next h
    · exact .inl ⟨d, _, rfl⟩
    · simp

/-- A step that answers a next state ran from `running`, and either performed the fetched instruction or took the fault
of its fetch or decode. -/
theorem step_next {s t : State} (h : step s = .next t) :
    s.status = .running ∧
      ((∃ i, fetchInstr s = .ok i ∧ exec i s = .next t) ∨ ∃ e, fetchInstr s = .error e ∧ t = s.raise e) := by
  unfold step at h
  split at h
  · cases h
  · cases h
  · next hs =>
    refine ⟨hs, ?_⟩
    split at h
    · next i hi => exact .inl ⟨i, hi, h⟩
    · next e he => cases h; exact .inr ⟨e, he, rfl⟩

end Sys2Proof.Machine
end

