-- ==== Sys2Proof/Laws/Assembler.lean ====
section
/-! SUPPORT. How encoding an instruction line depends on the symbol table: with more labels known, a forward reference becomes
the patch that pass 2 makes (30_encoding.md R87, R91). -/

namespace Sys2Proof.Machine.Asm

/-- Every label that `a` knows, `b` knows with the same index. -/
def Knows (a b : SymbolTable) : Prop := ∀ t i, a.lookup t = some i → b.lookup t = some i

theorem knows_refl (a : SymbolTable) : Knows a a := fun _ _ h => h

theorem knows_trans {a b c : SymbolTable} (h : Knows a b) (h' : Knows b c) : Knows a c :=
  fun t i x => h' t i (h t i x)

theorem knows_append (a b : SymbolTable) : Knows a (a ++ b) := by
  intro t i h
  rw [List.lookup_append, h]
  rfl

/-- A register name stands for an index of at most 4 (R87). -/
theorem registerNumber_le {t : Text} {k : Nat} (h : registerNumber t = some k) : k ≤ 4 := by
  unfold registerNumber at h
  simp only [List.lookup] at h
  repeat' split at h
  all_goals first | (cases h; decide) | cases h

/-- A register slot resolves exactly to the register that its token names, which exists (R88). -/
theorem resolveReg_eq_ok {t : Text} {r : RegSel} :
    resolveReg t = .ok r ↔ registerNumber t = some r.toNat ∧ r.valid = true := by
  unfold resolveReg
  cases hk : registerNumber t with
  | none => simp
  | some k =>
    have bound := registerNumber_le hk
    simp only [Except.ok.injEq, Option.some.injEq]
    constructor
    · rintro rfl
      simp [RegSel.valid]
      omega
    · rintro ⟨rfl, _⟩
      simp

/-- What an `imm` slot resolves to at once is its token's value under the same labels, and fits the field. -/
theorem resolveImm_ok {s : SymbolTable} {t : Text} {n : Nat} (h : resolveImm s t = .ok (some n)) :
    immValue s t = some n ∧ n < 2 ^ 19 := by
  unfold resolveImm at h
  unfold immValue
  cases hn : numeric t with
  | some k =>
    simp only [hn, checkImm] at h
    split at h
    · cases h; exact ⟨rfl, ‹_›⟩
    · cases h
  | none =>
    cases hr : registerNumber t with
    | some k =>
      have bound := registerNumber_le hr
      simp only [hn, hr] at h
      cases h
      exact ⟨rfl, by omega⟩
    | none =>
      cases hl : s.lookup t with
      | none => simp [hn, hr, hl] at h
      | some k =>
        simp only [hn, hr, hl, checkImm] at h
        split at h
        · cases h; exact ⟨rfl, ‹_›⟩
        · cases h

/-- An immediate operand resolves under the larger table as it does under the smaller, or as the index of its label. -/
theorem resolveImm_knows {a b : SymbolTable} (h : Knows a b) (t : Text) (n : Nat) :
    resolveImm b t = .ok (some n) ↔
      resolveImm a t = .ok (some n) ∨ resolveImm a t = .ok none ∧ b.lookup t = some n ∧ n < 2 ^ 19 := by
  unfold resolveImm
  cases numeric t with
  | some k => simp only [checkImm]; split <;> simp [Except.map]
  | none =>
    cases registerNumber t with
    | some k => simp
    | none =>
      cases ha : a.lookup t with
      | some i => simp only [h t i ha, checkImm]; split <;> simp [Except.map]
      | none =>
        cases b.lookup t with
        | none => simp
        | some i => simp only [checkImm]; split <;> simp [Except.map] <;> omega

/-- The operands of a line resolve under the larger table as they do under the smaller, or with the index of the label
that was pending. -/
theorem operands_knows {a b : SymbolTable} (h : Knows a b) :
    ∀ (slots : List Slot) (ts : List Text) (f g : Fields),
      operands b slots ts f = .ok (g, none) ↔ operands a slots ts f = .ok (g, none) ∨
        ∃ name g₀ n, operands a slots ts f = .ok (g₀, some name) ∧ b.lookup name = some n ∧ n < 2 ^ 19 ∧
          g = { g₀ with imm := BitVec.ofNat 19 n }
  | [], ts, f, g => by simp [operands]
  | .dst :: _, [], f, g => by simp [operands]
  | .src1 :: _, [], f, g => by simp [operands]
  | .src2 :: _, [], f, g => by simp [operands]
  | .imm :: _, [], f, g => by simp [operands]
  | .dst :: slots, t :: ts, f, g => by
    simp only [operands]
    cases resolveReg t with
    | error e => simp [bind, Except.bind]
    | ok r => exact operands_knows h slots ts _ g
  | .src1 :: slots, t :: ts, f, g => by
    simp only [operands]
    cases resolveReg t with
    | error e => simp [bind, Except.bind]
    | ok r => exact operands_knows h slots ts _ g
  | .src2 :: slots, t :: ts, f, g => by
    simp only [operands]
    cases resolveReg t with
    | error e => simp [bind, Except.bind]
    | ok r => exact operands_knows h slots ts _ g
  | .imm :: _, t :: _, f, g => by
    simp only [operands]
    have key := resolveImm_knows h t
    cases ha : resolveImm a t with
    | error e =>
      cases hb : resolveImm b t with
      | error e => simp [bind, Except.bind]
      | ok v =>
        cases v with
        | none => simp [bind, Except.bind]
        | some n => simpa [ha] using (key n).mp hb
    | ok v =>
      cases v with
      | some n => simp [(key n).mpr (.inl ha), bind, Except.bind]
      | none =>
        have late : ∀ n, b.lookup t = some n → n < 2 ^ 19 → resolveImm b t = .ok (some n) :=
          fun n hl hn => (key n).mpr (.inr ⟨ha, hl, hn⟩)
        cases hb : resolveImm b t with
        | error e =>
          simp only [bind, Except.bind]
          simp
          intro n hl hn
          simp [late n hl hn] at hb
        | ok v =>
          cases v with
          | none =>
            simp only [bind, Except.bind]
            simp
            intro n hl hn
            simp [late n hl hn] at hb
          | some m =>
            have found := (key m).mp hb
            simp [ha] at found
            simp [bind, Except.bind, found.1]
            constructor
            · rintro rfl
              exact ⟨found.2, rfl⟩
            · rintro ⟨_, rfl⟩
              rfl

/-- A pending operand leaves the `imm` field as it was, "a placeholder" (R87). -/
theorem operands_pending {a : SymbolTable} :
    ∀ (slots : List Slot) (ts : List Text) (f g : Fields) (name : Text),
      operands a slots ts f = .ok (g, some name) → g.imm = f.imm
  | [], ts, f, g, name => by simp [operands]
  | .dst :: _, [], f, g, name => by simp [operands]
  | .src1 :: _, [], f, g, name => by simp [operands]
  | .src2 :: _, [], f, g, name => by simp [operands]
  | .imm :: _, [], f, g, name => by simp [operands]
  | .dst :: slots, t :: ts, f, g, name => by
    simp only [operands]
    cases resolveReg t with
    | error e => simp [bind, Except.bind]
    | ok r => exact operands_pending slots ts _ g name
  | .src1 :: slots, t :: ts, f, g, name => by
    simp only [operands]
    cases resolveReg t with
    | error e => simp [bind, Except.bind]
    | ok r => exact operands_pending slots ts _ g name
  | .src2 :: slots, t :: ts, f, g, name => by
    simp only [operands]
    cases resolveReg t with
    | error e => simp [bind, Except.bind]
    | ok r => exact operands_pending slots ts _ g name
  | .imm :: _, t :: _, f, g, name => by
    simp only [operands]
    cases resolveImm a t with
    | error e => simp [bind, Except.bind]
    | ok v =>
      cases v <;> simp [bind, Except.bind]
      rintro rfl _
      rfl

/-- Masking the low 19 bits away and putting a number there, on a word whose low 19 bits are 0. -/
theorem patchWord_mul {k n : Nat} (hk : k < 2 ^ 13) (hn : n < 2 ^ 19) :
    patchWord (BitVec.ofNat 32 (k * 2 ^ 19)) n = BitVec.ofNat 32 (k * 2 ^ 19 + n) := by
  have masked : BitVec.ofNat 32 (k * 2 ^ 19) &&& 0xFFF80000 = BitVec.ofNat 32 (k * 2 ^ 19) := by
    apply BitVec.eq_of_getLsbD_eq
    intro j hj
    rw [BitVec.getLsbD_and]
    by_cases low : j < 19
    · have zero : (BitVec.ofNat 32 (k * 2 ^ 19)).getLsbD j = false := by
        rw [BitVec.getLsbD_ofNat, Nat.testBit_mul_two_pow]
        simp only [show ¬ 19 ≤ j by omega, decide_false, Bool.false_and, Bool.and_false]
      rw [zero, Bool.false_and]
    · have one : ∀ j : Fin 32, 19 ≤ j.val → (0xFFF80000#32).getLsbD j.val = true := by decide
      rw [show (0xFFF80000 : BitVec 32).getLsbD j = true from one ⟨j, hj⟩ (Nat.le_of_not_lt low), Bool.and_true]
  apply BitVec.eq_of_toNat_eq
  rw [patchWord, masked, BitVec.toNat_or]
  simp only [BitVec.toNat_ofNat]
  rw [Nat.mod_eq_of_lt (by omega), Nat.mod_eq_of_lt (by omega), Nat.mod_eq_of_lt (by omega), Nat.mul_comm,
    Nat.two_pow_add_eq_or_of_lt hn]

/-- Pass 2's patch of a word with a zero `imm` field is the word with that field (R91). -/
theorem patchWord_encode (f : Fields) (h : f.imm = 0) {n : Nat} (hn : n < 2 ^ 19) :
    patchWord f.encode n = Fields.encode { f with imm := BitVec.ofNat 19 n } := by
  obtain ⟨o, d, a, b, i⟩ := f
  simp only at h
  subst h
  have bo := o.isLt
  have bd := d.isLt
  have ba := a.isLt
  have bb := b.isLt
  have high : o.toNat * 2 ^ 28 + d.toNat * 2 ^ 25 + a.toNat * 2 ^ 22 + b.toNat * 2 ^ 19 =
      (o.toNat * 2 ^ 9 + d.toNat * 2 ^ 6 + a.toNat * 2 ^ 3 + b.toNat) * 2 ^ 19 := by ring
  simp only [Fields.encode, show (0 : BitVec 19).toNat = 0 from rfl, Nat.add_zero, BitVec.toNat_ofNat,
    Nat.mod_eq_of_lt hn]
  rw [high, patchWord_mul (by omega) hn]

/-- An instruction line is encoded under the larger table as it is under the smaller, or as its patched placeholder. -/
theorem instructionWord_knows {a b : SymbolTable} (h : Knows a b) (tokens : List Text) (w : InstrWord) :
    instructionWord b tokens = .ok (w, none) ↔ instructionWord a tokens = .ok (w, none) ∨
      ∃ name w₀ n, instructionWord a tokens = .ok (w₀, some name) ∧ b.lookup name = some n ∧ n < 2 ^ 19 ∧
        w = patchWord w₀ n := by
  cases tokens with
  | nil => simp [instructionWord]
  | cons m ts =>
    simp only [instructionWord]
    cases catalog.lookup (m.map Char.toUpper) with
    | none => simp
    | some row =>
      obtain ⟨op, slots⟩ := row
      simp only
      split
      · simp
      · have key := operands_knows h slots ts ⟨op, 0, 0, 0, 0⟩
        have zero := @operands_pending a slots ts ⟨op, 0, 0, 0, 0⟩
        constructor
        · intro hw
          obtain ⟨⟨g, p⟩, hg, hp⟩ := bind_eq_ok.mp hw
          cases hp
          rcases (key g).mp hg with h₁ | ⟨name, g₀, n, h₁, h₂, h₃, rfl⟩
          · exact .inl (bind_eq_ok.mpr ⟨_, h₁, rfl⟩)
          · exact .inr ⟨name, g₀.encode, n, bind_eq_ok.mpr ⟨_, h₁, rfl⟩, h₂, h₃,
              (patchWord_encode g₀ (zero _ _ h₁) h₃).symm⟩
        · rintro (hw | ⟨name, w₀, n, hw, h₂, h₃, rfl⟩)
          · obtain ⟨⟨g, p⟩, hg, hp⟩ := bind_eq_ok.mp hw
            cases hp
            exact bind_eq_ok.mpr ⟨_, (key g).mpr (.inl hg), rfl⟩
          · obtain ⟨⟨g, p⟩, hg, hp⟩ := bind_eq_ok.mp hw
            cases hp
            refine bind_eq_ok.mpr ⟨({ g with imm := BitVec.ofNat 19 n }, none),
              (key _).mpr (.inr ⟨name, g, n, hg, h₂, h₃, rfl⟩), ?_⟩
            simp only [patchWord_encode g (zero _ _ hg) h₃]

end Sys2Proof.Machine.Asm
end

