-- ==== Sys2Proof/Laws/Loading.lean ====
section
/-! SUPPORT. What each of the host's requests answers when it succeeds (70_reset_and_hazards.md R192 to R194). -/

namespace Sys2Proof.Machine

/-- A loaded program fits its memory and replaces the whole of it. -/
theorem loadProgram_ok {program : List Int} {s t : State} (h : loadProgram program s = .ok t) :
    program.length ≤ s.params.imemWords ∧ (∀ w ∈ program, 0 ≤ w ∧ w < 2 ^ 32) ∧
      t = { s with imem := Memory.ofList (program.map (trunc 32)) } := by
  unfold loadProgram at h
  split at h
  · cases h
  · split at h
    · next hl hw => cases h; exact ⟨by omega, hw, rfl⟩
    · cases h

/-- Loaded data fit their memory and replace the whole of it. -/
theorem loadData_ok {data : List Int} {s t : State} (h : loadData data s = .ok t) :
    data.length ≤ s.params.dmemWords ∧ (∀ v ∈ data, -(2 : Int) ^ (s.xlen - 1) ≤ v ∧ v < 2 ^ (s.xlen - 1)) ∧
      t = { s with dmem := Memory.ofList (data.map (trunc s.xlen)) } := by
  unfold loadData at h
  split at h
  · cases h
  · split at h
    · next hl hv => cases h; exact ⟨by omega, hv, rfl⟩
    · cases h

/-- What a successful request has found and done. -/
theorem hostRequest_ok {e e' : Engine} {r : HostRequest} (h : hostRequest e r = .ok e') :
    (∃ program s, r = .loadProgram program ∧ e.programLoaded = false ∧ e.started = false ∧
      loadProgram program e.state = .ok s ∧ e' = { e with state := s, programLoaded := true }) ∨
    (∃ data s, r = .loadData data ∧ e.dataLoaded = false ∧ e.started = false ∧
      loadData data e.state = .ok s ∧ e' = { e with state := s, dataLoaded := true }) ∨
    (r = .start ∧ e.started = false ∧ e.programLoaded = true ∧ e' = { e with started := true }) := by
  cases r with
  | loadProgram program =>
    simp only [hostRequest] at h
    split at h
    · cases h
    · next hc =>
      obtain ⟨s, hs, h⟩ := bind_eq_ok.mp h
      cases h
      simp only [Bool.or_eq_true, not_or, Bool.not_eq_true] at hc
      exact .inl ⟨program, s, rfl, hc.1, hc.2, hs, rfl⟩
  | loadData data =>
    simp only [hostRequest] at h
    split at h
    · cases h
    · next hc =>
      obtain ⟨s, hs, h⟩ := bind_eq_ok.mp h
      cases h
      simp only [Bool.or_eq_true, not_or, Bool.not_eq_true] at hc
      exact .inr (.inl ⟨data, s, rfl, hc.1, hc.2, hs, rfl⟩)
  | start =>
    simp only [hostRequest] at h
    split at h
    · cases h
    · next hc =>
      cases h
      simp only [Bool.or_eq_true, Bool.not_eq_true', not_or, Bool.not_eq_true, Bool.not_eq_false] at hc
      exact .inr (.inr ⟨rfl, hc.1, hc.2, rfl⟩)

/-- What every successful request keeps, a sequence of them keeps. -/
theorem hostRequests_keep {P : Engine → Prop} (step : ∀ e r e', P e → hostRequest e r = .ok e' → P e')
    {e e' : Engine} {rs : List HostRequest} (he : P e) (h : hostRequests e rs = .ok e') : P e' := by
  induction rs generalizing e with
  | nil => cases h; exact he
  | cons r rs ih =>
    simp only [hostRequests] at h
    obtain ⟨e₁, h₁, h₂⟩ := bind_eq_ok.mp h
    exact ih (step _ _ _ he h₁) h₂

end Sys2Proof.Machine
end

