-- ==== Sys2Proof/Laws/PerInstr.lean ====
section
/-! SUPPORT. Laws stated per instruction. `Shape`: the fields of an instruction follow its row of the opcode map and its
operand shape (30_encoding.md R75, R76, R78, R82). -/

namespace Sys2Proof.Laws.Shape

/-- The instruction's opcode is a defined one and selects this row of the opcode map, every field its shape does not use
is 0, and it is well-formed exactly when the decoder block's `reg_valid` holds of its fields. -/
def Statement (i : Instr) : Prop :=
  i.fields.canonical = true ∧ i.fields.regValid = i.wf ∧ i.matchWord = BitVec.ofNat 32 (i.fields.opcode.toNat * 2 ^ 28)

theorem load (dst src1 : RegSel) : Statement (.load dst src1) := by
  refine ⟨rfl, ?_, by simp [Instr.matchWord, Instr.fields]⟩
  simp [Fields.regValid, Instr.fields, shapeOf, Instr.wf, Instr.regFields]

theorem store (dst : RegSel) (imm : Imm) : Statement (.store dst imm) := by
  refine ⟨rfl, ?_, by simp [Instr.matchWord, Instr.fields]⟩
  simp [Fields.regValid, Instr.fields, shapeOf, Instr.wf, Instr.regFields]

theorem add (dst src1 src2 : RegSel) : Statement (.add dst src1 src2) := by
  refine ⟨rfl, ?_, by simp [Instr.matchWord, Instr.fields]⟩
  simp [Fields.regValid, Instr.fields, shapeOf, Instr.wf, Instr.regFields, Bool.and_assoc]

theorem jumpIf (imm : Imm) : Statement (.jumpIf imm) :=
  ⟨rfl, rfl, by simp [Instr.matchWord, Instr.fields]⟩

theorem jump (imm : Imm) : Statement (.jump imm) :=
  ⟨rfl, rfl, by simp [Instr.matchWord, Instr.fields]⟩

theorem terminate : Statement .terminate :=
  ⟨rfl, rfl, by simp [Instr.matchWord, Instr.fields]⟩

theorem cmp (dst src1 : RegSel) : Statement (.cmp dst src1) := by
  refine ⟨rfl, ?_, by simp [Instr.matchWord, Instr.fields]⟩
  simp [Fields.regValid, Instr.fields, shapeOf, Instr.wf, Instr.regFields]

theorem inc (dst : RegSel) : Statement (.inc dst) := by
  refine ⟨rfl, ?_, by simp [Instr.matchWord, Instr.fields]⟩
  simp [Fields.regValid, Instr.fields, shapeOf, Instr.wf, Instr.regFields]

theorem move (dst : RegSel) (imm : Imm) : Statement (.move dst imm) := by
  refine ⟨rfl, ?_, by simp [Instr.matchWord, Instr.fields]⟩
  simp [Fields.regValid, Instr.fields, shapeOf, Instr.wf, Instr.regFields]

end Sys2Proof.Laws.Shape
end

