-- ==== Sys2Proof/Laws/Run.lean ====
section
/-! SUPPORT. How runs unfold: one step at a time, in the host's form and in the model's own. -/

namespace Sys2Proof.Machine

/-- No step made yet. -/
theorem run_zero (s : State) : Host.Core.run Sys2Proof.core 0 s = .next s := rfl

/-- The host's run, for any machine, makes one step of the machine and goes on. -/
theorem core_run_succ (M : Host.Core) (k : Nat) (s : M.State) :
    M.run (k + 1) s =
      match M.step s with
      | .next t => M.run k t
      | .fault r => .fault r
      | .refused r => .refused r := rfl

/-- The same of this machine, in terms of its own `step`. -/
theorem run_succ (k : Nat) (s : State) :
    Host.Core.run Sys2Proof.core (k + 1) s =
      match step s with
      | .next t => Host.Core.run Sys2Proof.core k t
      | .fault r => .fault r
      | .refused r => .refused r := by
  have h := core_run_succ Sys2Proof.core k s
  simp only [show Sys2Proof.core.step s = step s from rfl] at h
  rw [h]
  cases step s <;> rfl

/-- A run that has not ended without making a step. -/
theorem runFor_zero (s : State) : runFor 0 s = if s.status = .running then none else some (s, 0) := rfl

/-- One step of a run and the rest of it. -/
theorem runFor_succ (fuel : Nat) (s : State) :
    runFor (fuel + 1) s =
      match step s with
      | .next t => (runFor fuel t).map fun r => (r.1, r.2 + stepCount t)
      | .fault _ => some (s, 0)
      | .refused _ => none := rfl

/-- Every state reaches itself. -/
theorem reaches_refl (s : State) : Reaches s s := ⟨0, rfl⟩

/-- What a step answers is reached, and so is all that is reached from there. -/
theorem reaches_of_step {s t u : State} (h : step s = .next t) (hr : Reaches t u) : Reaches s u := by
  obtain ⟨k, hk⟩ := hr
  exact ⟨k + 1, by rw [run_succ, h]; exact hk⟩

end Sys2Proof.Machine
end

