-- ==== Sys2Proof/Tests/Slice0.lean ====
section
/-! SUPPORT. Tests and witnesses. Expected results come from spec/95_test_vectors.md (T and E numbers) or are calculated
from the rules by hand; none is the model's own answer. A `witness_…` shows states and operands that meet all the hypotheses
of the obligation it names, at boundary values. -/

namespace Sys2Proof.Tests

open Sys2Proof Sys2Proof.Machine

/-! ## Helpers -/

/-- An engine of chosen parameters whose five registers hold the given patterns, otherwise as after reset. -/
def machine (p : Params) (a b c d e : Nat) : State :=
  { State.construct p with
    regs := #v[BitVec.ofNat _ a, BitVec.ofNat _ b, BitVec.ofNat _ c, BitVec.ofNat _ d, BitVec.ofNat _ e] }

/-- The default engine of 00_scope.md R5. -/
def dflt : Params := ⟨32, 2048, 2048⟩

/-- A small engine at the bounds of R5: XLEN = 20, three instruction words, four data cells. -/
def tiny : Params := ⟨20, 3, 4⟩

/-- The state with a word at its `pc`. -/
def placed (s : State) (w : Nat) : State := s.withFetchWord 32 w

/-- One step of the state with a word at its `pc` answers a next state of which `p` holds. -/
def runs (s : State) (w : Nat) (p : State → Bool) : Bool :=
  match step (placed s w) with
  | .next t => p t
  | .fault _ => false
  | .refused _ => false

/-- The five registers as numbers. -/
def regsOf (s : State) : List Nat := [s.regNat 0, s.regNat 1, s.regNat 2, s.regNat 3, s.regNat 4]

/-- The step of 95_test_vectors.md section 2.6: the engine stopped with the cause code, all else unchanged. -/
def faultsWith (s : State) (w : Nat) (code : BitVec 3) : Bool :=
  runs s w fun t => causeCode t.faultCause == code && t.status == .faulted && t.pc == s.pc && regsOf t == regsOf s &&
    t.flag == s.flag && t.dmem.map (fun x => (x.1, x.2.toNat)) == s.dmem.map (fun x => (x.1, x.2.toNat))

/-- A source line. -/
def line (s : String) : Asm.Text := s.toList

/-- The words or the error of one `compile` call. -/
def assembled (ls : List String) : Except Asm.AsmError (List InstrWord) := Asm.compile (ls.map line)

/-! ## Well-formedness: each register field an opcode uses is checked (R78); the rest is not (R79) -/

theorem test_wf_load_dst_refused : (Instr.load 5 0).wf = false := by decide
theorem test_wf_load_src1_refused : (Instr.load 0 6).wf = false := by decide
theorem test_wf_store_dst_refused : (Instr.store 5 0).wf = false := by decide
theorem test_wf_add_dst_refused : (Instr.add 7 0 0).wf = false := by decide
theorem test_wf_add_src1_refused : (Instr.add 0 5 0).wf = false := by decide
theorem test_wf_add_src2_refused : (Instr.add 0 0 5).wf = false := by decide
theorem test_wf_cmp_dst_refused : (Instr.cmp 6 0).wf = false := by decide
theorem test_wf_cmp_src1_refused : (Instr.cmp 0 7).wf = false := by decide
theorem test_wf_inc_dst_refused : (Instr.inc 5).wf = false := by decide
theorem test_wf_move_dst_refused : (Instr.move 5 1).wf = false := by decide
theorem test_wf_accepts : ([.load 4 4, .store 4 524287, .add 4 4 4, .jumpIf 524287, .jump 0, .terminate, .cmp 4 0, .inc 4,
    .move 4 524287] : List Instr).all Instr.wf = true := by decide

/-! ## Decoding and encoding: words written out from R71 and R76, vectors T1 to T20 -/

theorem test_decode_load : decode 0b0000_100_100_000_0000000000000000000 = .ok (.load 4 4) ∧
    decode 0b0000_000_000_001_0000000000000000000 = .ok (.load 0 0) := by decide
theorem test_decode_store : decode 0b0001_100_000_000_1111111111111111111 = .ok (.store 4 524287) := by decide
theorem test_decode_add : decode 0b0010_000_001_010_0000000000000000000 = .ok (.add 0 1 2) := by decide
theorem test_decode_jumpIf : decode 0b0011_111_111_111_0000000000000000010 = .ok (.jumpIf 2) := by decide
theorem test_decode_jump : decode 0b0100_000_000_000_0000000000000000010 = .ok (.jump 2) := by decide
theorem test_decode_terminate : decode 0b0101_000_000_000_0000000000000000000 = .ok .terminate := by decide
theorem test_decode_cmp : decode 0b0110_000_001_000_0000000000000000000 = .ok (.cmp 0 1) := by decide
theorem test_decode_inc : decode 0b0111_100_000_000_0000000000000000000 = .ok (.inc 4) := by decide
theorem test_decode_move : decode 0b1000_011_000_000_1000000000000000000 = .ok (.move 3 262144) := by decide

/-- R77: the opcodes 9 to 15 are rejected by name. -/
theorem test_decode_rejects : ∀ op : Fin 7,
    decode (BitVec.ofNat 32 ((9 + op.val) * 2 ^ 28)) = .error (.undefinedOpcode (BitVec.ofNat 4 (9 + op.val))) := by decide

/-- The canonical words of P1, P2 and T3. -/
theorem test_encode : encode (.load 3 0) = 0x06000000 ∧ encode (.store 4 524287) = 0x1807FFFF ∧
    encode (.add 2 2 3) = 0x24980000 ∧ encode (.jumpIf 6) = 0x30000006 ∧ encode (.jump 2) = 0x40000002 ∧
    encode .terminate = 0x50000000 ∧ encode (.cmp 1 0) = 0x62000000 ∧ encode (.inc 1) = 0x72000000 ∧
    encode (.move 0 5) = 0x80000005 := by decide

theorem test_decodeTableWord : decodeTableWord 32 0x20500000 = some (.add 0 1 2) ∧
    decodeTableWord 32 0xF0000000 = none := by decide

/-- R36: the decoder block of `ADD R0 R3` with `src2` = 5 (T89) and of opcode 9 (T14). -/
theorem test_decoder_block : (decoderBlock 0x20E80000).regValid = false ∧ (decoderBlock 0x20E80000).opValid = true ∧
    (decoderBlock 0x20E80000).illegal = true ∧ (decoderBlock 0x90000000).illegal = true ∧
    (decoderBlock 0x90000000).shape = ⟨false, false, false, false⟩ ∧ (decoderBlock 0x81C00005).illegal = false := by decide

/-! ## One step of each instruction -/

/-- T41: the same register as address and destination; the old value addresses. -/
theorem test_load_same_register : runs (((machine dflt 1 0 0 0 0).setCell 1 20).setCell 2 30) 0x00000000
    (fun t => regsOf t == [20, 0, 0, 0, 0] && t.pc == 1 && t.flag == .equal) = true := by decide
/-- T46: a negative value is copied in full. -/
theorem test_load_negative : runs ((machine dflt 0 7 0 0 0).setCell 0 0xFFFFFFFE) 0x02000000
    (fun t => regsOf t == [0, 0xFFFFFFFE, 0, 0, 0] && t.regInt 1 == -2) = true := by decide
/-- T48: the last cell; the whole pattern is stored. -/
theorem test_store_last_cell : runs (machine dflt 0 0 0 0 0xDEADBEEF) 0x180007FF
    (fun t => t.cellNat 2047 == 0xDEADBEEF && t.cellNat 2046 == 0 && t.pc == 1 &&
      regsOf t == [0, 0, 0, 0, 0xDEADBEEF]) = true := by decide
/-- T51, with the capacity its address needs. -/
theorem test_store_large_capacity : runs (machine ⟨32, 2048, 524288⟩ 0 0 0 0 1) 0x1807FFFF
    (fun t => t.cellNat 524287 == 1 && t.status == .running) = true := by decide
/-- T53: bit 18 of the literal is no sign, and the old upper bits are cleared. -/
theorem test_move_bit18 : runs (machine dflt 0 0 0 0xFFFFFFFF 0) 0x86040000
    (fun t => regsOf t == [0, 0, 0, 0x00040000, 0] && t.pc == 1) = true := by decide
/-- T55: the unused `src1` = 7 is ignored. -/
theorem test_move_ignores_unused : runs (machine dflt 0 0 0 0 0) 0x81C00005
    (fun t => regsOf t == [5, 0, 0, 0, 0] && t.status == .running) = true := by decide
/-- T56: accumulate, with a negative operand; the flag is untouched. -/
theorem test_add_accumulates : runs ((machine dflt 0 0 7 0xFFFFFFFE 0).setFlag .less) 0x24980000
    (fun t => regsOf t == [0, 0, 5, 0xFFFFFFFE, 0] && t.flag == .less && t.pc == 1) = true := by decide
/-- T57: doubling overflows and wraps. -/
theorem test_add_wraps : runs (machine dflt 0 0x7FFFFFFF 0 0 0) 0x24480000
    (fun t => regsOf t == [0, 0x7FFFFFFF, 0xFFFFFFFE, 0, 0]) = true := by decide
/-- T64: INC of the largest positive value. -/
theorem test_inc_overflows : runs (machine dflt 0 0x7FFFFFFF 0 0 0) 0x72000000
    (fun t => t.regInt 1 == -2147483648 && t.flag == .equal) = true := by decide
/-- T65: INC of -1. -/
theorem test_inc_wraps : runs (machine dflt 0 0xFFFFFFFF 0 0 0) 0x72000000
    (fun t => regsOf t == [0, 0, 0, 0, 0] && t.pc == 1) = true := by decide
/-- T70: the extremes; a compare does not overflow. -/
theorem test_cmp_extremes : runs (machine dflt 0x7FFFFFFF 0x80000000 0 0 0) 0x62000000
    (fun t => t.flag == .less && regsOf t == [0x7FFFFFFF, 0x80000000, 0, 0, 0]) = true := by decide
/-- T67: `greater` means first > second. -/
theorem test_cmp_greater : runs (machine dflt 5 0 0 0 0) 0x60400000
    (fun t => t.flag == .greater && t.pc == 1) = true := by decide
/-- T73: taken to the immediate itself. -/
theorem test_jumpIf_taken : runs (machine dflt 0 0 0 0 0) 0x30000006 (fun t => t.pc == 6) = true := by decide
/-- T74: not taken. -/
theorem test_jumpIf_not_taken : runs ((machine dflt 0 0 0 0 0).setFlag .less) 0x30000006
    (fun t => t.pc == 1 && t.flag == .less) = true := by decide
/-- T79: a jump beyond instruction memory completes, and the next fetch faults. -/
theorem test_jump_beyond : runs (machine dflt 0 0 0 0 0) 0x40000800
    (fun t => t.pc == 2048 && t.status == .running && faultsWith t 0 3) = true := by decide
/-- T81: halted, all else unchanged; a halted engine has no step. -/
theorem test_terminate : runs (machine dflt 1 2 3 4 5) 0x50000000
    (fun t => t.status == .halted && t.faultCause == .none && regsOf t == [1, 2, 3, 4, 5] &&
      !runs t 0x50000000 fun _ => true) = true := by decide

/-! ## Faults: section 2.6 of the vectors, `x[0] = 0xFFFFFFFF` -/

/-- T84, T86: the opcode is reported before the register fields. -/
theorem test_fault_opcode : faultsWith (machine dflt 0xFFFFFFFF 0 0 0 0) 0x90000000 1 = true ∧
    faultsWith (machine dflt 0xFFFFFFFF 0 0 0 0) 0xFFFFFFFF 1 = true := by decide
/-- T87, T89, T91: a bad `dst`, `src2`, `src1`. -/
theorem test_fault_register : faultsWith (machine dflt 0xFFFFFFFF 0 0 0 0) 0x8A000001 2 = true ∧
    faultsWith (machine dflt 0xFFFFFFFF 0 0 0 0) 0x20E80000 2 = true ∧
    faultsWith (machine dflt 0xFFFFFFFF 0 0 0 0) 0x63400000 2 = true := by decide
/-- T93: a bad index and a bad address at once; the index is reported. -/
theorem test_fault_priority : faultsWith (machine dflt 0xFFFFFFFF 0 0 0 0) 0x0E000000 2 = true := by decide
/-- T43, T44, T45, T49: the data address. -/
theorem test_fault_data : faultsWith (machine dflt 2048 0 0 0 0) 0x02000000 4 = true ∧
    faultsWith (machine dflt 0xFFFFFFFF 0 0 0 0) 0x02000000 4 = true ∧
    faultsWith (machine dflt 0x80000000 0 0 0 0) 0x02000000 4 = true ∧
    faultsWith (machine dflt 0 0 0 0 1) 0x18000800 4 = true := by decide

/-! ## Loading and runs -/

/-- T101 on four cells: `[7, -2, 30, 5]`. -/
theorem test_load_data : ((loadData [7, -2, 30, 5] (State.construct ⟨32, 3, 4⟩)).toOption.map fun t =>
    [t.cellNat 0, t.cellNat 1, t.cellNat 2, t.cellNat 3, t.cellNat 4]) = some [7, 0xFFFFFFFE, 30, 5, 0] := by decide
/-- E8 and T99 at capacity 3; T103 at XLEN = 32. -/
theorem test_load_bounds : (loadProgram [1, 2, 3] (State.construct tiny)).toOption.isSome = true ∧
    loadProgram [1, 2, 3, 4] (State.construct tiny) = .error .programTooLarge ∧
    loadData [0, 0, 0, 0, 0] (State.construct tiny) = .error .dataTooLarge ∧
    loadData [2147483648] (State.construct dflt) = .error .valueOutOfRange ∧
    loadProgram [4294967296] (State.construct dflt) = .error .wordOutOfRange := by decide
/-- The last vector of section 2.6: an empty program on IMEM_WORDS = 3, DMEM_WORDS = 1 makes 3 steps, then fault 3. -/
theorem test_run_off_the_end : ((runFor 5 (State.construct ⟨32, 3, 1⟩)).map fun r =>
    (causeCode r.1.faultCause, r.1.pc, r.2)) = some (3, 3, 3) := by decide
/-- V14: parameters below the bound of R5. -/
theorem test_construct_refuses : constructEngine ⟨19, 3, 4⟩ = .error .badParameters ∧
    constructEngine ⟨32, 2 ^ 19 + 1, 4⟩ = .error .badParameters := by decide

/-! ## The assembler: E3 to E5, T21 to T39 -/

/-- E3: forward and backward. -/
theorem test_assemble_labels :
    assembled ["JUMP target", "INC R0", "target:", "TERMINATE"] = .ok [0x40000002, 0x70000000, 0x50000000] ∧
    assembled ["INC R0", "target:", "TERMINATE", "JUMP target"] = .ok [0x70000000, 0x50000000, 0x40000001] := by decide
/-- E4, E5. -/
theorem test_assemble_label_errors : assembled ["L:", "INC R0", "L:"] = .error (.duplicateLabel (line "L")) ∧
    assembled ["JUMP missing"] = .error (.unresolvedLabel (line "missing")) := by decide
/-- T21, T23, T29, T36, T38. -/
theorem test_assemble_lines : assembled ["move R0 5"] = .ok [0x80000005] ∧ assembled ["MOVE R2 R3"] = .ok [0x84000003] ∧
    assembled ["MOVE R0 524287"] = .ok [0x8007FFFF] ∧
    assembled ["# only a comment", "", "TERMINATE   # stop"] = .ok [0x50000000] ∧
    assembled ["JUMP end", "end:"] = .ok [0x40000001] := by decide
/-- The nine example lines of R86 and their words: each operand goes to the field of the table. -/
theorem test_assemble_operand_slots : assembled ["LOAD R3 R0", "STORE R2 16", "ADD R2 R2 R3", "JUMP_IF 6", "JUMP 2", "TERMINATE",
      "CMP R1 R0", "INC R1", "MOVE R0 5"] =
    .ok [0x06000000, 0x14000010, 0x24980000, 0x30000006, 0x40000002, 0x50000000, 0x62000000, 0x72000000, 0x80000005] := by
  decide
/-- T22, T26, T28, T30, T32, T33, T34. -/
theorem test_assemble_errors : assembled ["MOVE r0 5"] = .error (.unknownRegister (line "r0")) ∧
    assembled ["INC 3"] = .error (.unknownRegister (line "3")) ∧ assembled ["FOO R1"] = .error (.unknownOpcode (line "FOO")) ∧
    assembled ["MOVE R0 524288"] = .error (.immediateRange (line "524288")) ∧
    assembled ["TERMINATE 0"] = .error (.operandCount (line "TERMINATE")) ∧
    assembled ["loop: # top"] = .error (.unknownOpcode (line "loop:")) ∧
    assembled ["MOVE R0 -1"] = .error (.unresolvedLabel (line "-1")) := by decide

/-! ## Witnesses: states that meet the hypotheses of the obligations -/

/-- The tiny engine at its last instruction address, 2, with a word there and register patterns. -/
def last (w : Nat) (a b c d e : Nat) : State := placed ((machine tiny a b c d e).setPc 2) w

theorem witness_FieldsAreDisjointAndCoverTheWord : (shapeOf 1).useImm = true ∧ (shapeOf 8).useImm = true ∧
    (Fields.mk 15 7 7 7 524287).encode = (Fields.ofWord 0xFFFFFFFF).encode := by decide
/-- A canonical word, and a non-canonical one of the same instruction (T16). -/
theorem witness_DecodeInvertsEncodeExactlyOnCanonicalWords :
    decode 0x80000005 = .ok (.move 0 5) ∧ (Fields.ofWord 0x80000005).canonical = true ∧
    decode 0x81C00005 = .ok (.move 0 5) ∧ (Fields.ofWord 0x81C00005).canonical = false := by decide
/-- The bounds `0x8FFFFFFF` and `0x90000000`. -/
theorem witness_MaskAndMatchSelectTheInstruction : (decode 0x8FFFFFFF).toOption = some (.move 7 524287) ∧
    decode 0x90000000 = .error (.undefinedOpcode 9) := by decide
/-- The hypotheses of `UnusedFieldsDoNotAffectDecoding`, of two different words. -/
abbrev Agree (w v : InstrWord) : Prop :=
  w ≠ v ∧ (Fields.ofWord w).opcode = (Fields.ofWord v).opcode ∧
    ((shapeOf (Fields.ofWord w).opcode).useDst = true → (Fields.ofWord w).dst = (Fields.ofWord v).dst) ∧
    ((shapeOf (Fields.ofWord w).opcode).useSrc1 = true → (Fields.ofWord w).src1 = (Fields.ofWord v).src1) ∧
    ((shapeOf (Fields.ofWord w).opcode).useSrc2 = true → (Fields.ofWord w).src2 = (Fields.ofWord v).src2) ∧
    ((shapeOf (Fields.ofWord w).opcode).useImm = true → (Fields.ofWord w).imm = (Fields.ofWord v).imm)

/-- Words of MOVE, of TERMINATE and of an undefined opcode. -/
theorem witness_UnusedFieldsDoNotAffectDecoding : Agree 0x81C00005 0x80000005 ∧ Agree 0x5FFFFFFF 0x50000000 ∧
    Agree 0x9FFFFFFF 0x90000000 := ⟨by decide, by decide, by decide⟩
/-- Codes at both ends of the three forms. -/
theorem witness_LatchBitFormsAreDistinct : flagBits .equal = 0 ∧ flagBits .less = 2 ∧ statusBits .faulted = 2 ∧
    causeCode .none = 0 ∧ causeCode .dataAddressFault = 4 := by decide
theorem witness_StepRunsDecodedInstruction : (last 0x5FFFFFFF 0 0 0 0 0).status = .running ∧
    (last 0x5FFFFFFF 0 0 0 0 0).pc.toNat < (last 0x5FFFFFFF 0 0 0 0 0).params.imemWords ∧
    decode ((last 0x5FFFFFFF 0 0 0 0 0).word 2) = .ok .terminate := by decide
theorem witness_PlacedWordIsFetchedAndRun : (last 7 0 0 0 0 0).imem.wf ∧ (last 7 0 0 0 0 0).status = .running ∧
    (last 7 0 0 0 0 0).pc.toNat < (last 7 0 0 0 0 0).params.imemWords ∧
    decode (BitVec.ofNat 32 0x5FFFFFFF) = .ok .terminate := by decide
theorem witness_EngineStepsExactlyWhileRunning : State.reset.status = .running ∧ State.reset.halt.status = .halted ∧
    (State.reset.raise .invalidOpcodeReg).status = .faulted := by decide
/-- The last cell of the tiny engine, addressed by R4, which is also the destination; and cell 0 by R0. -/
theorem witness_LoadReadsCellAtRegister :
    (4 : RegSel).toNat = (4 : RegIdx).val ∧ (machine tiny 0 0 0 0 3).regInt 4 = (3 : Nat) ∧
    3 < (machine tiny 0 0 0 0 3).params.dmemWords ∧ (0 : RegSel).toNat = (0 : RegIdx).val ∧
    (machine tiny 0 0 0 0 3).regInt 0 = (0 : Nat) ∧ 0 < (machine tiny 0 0 0 0 3).params.dmemWords := by decide
theorem witness_StoreWritesCellAtImmediate : ((machine tiny 0 0 0 0 9).setCell 3 8).dmem.wf ∧
    (4 : RegSel).toNat = (4 : RegIdx).val ∧ storeAddress 3 = (3 : Nat) ∧
    3 < ((machine tiny 0 0 0 0 9).setCell 3 8).params.dmemWords := by decide
/-- XLEN at its bound, 20. -/
theorem witness_MoveWritesZeroExtendedLiteral : (machine tiny 0 0 0 0 0).params.Admissible ∧
    (4 : RegSel).toNat = (4 : RegIdx).val := by decide
/-- All three registers the same, and all different. -/
theorem witness_AddWritesWrappedSum : ∀ p ∈ ([(0, 0), (1, 1), (2, 2), (3, 3), (4, 4)] : List (RegSel × RegIdx)),
    p.1.toNat = p.2.val := by decide
theorem witness_IncWritesWrappedSuccessor : (0 : RegSel).toNat = (0 : RegIdx).val ∧
    (4 : RegSel).toNat = (4 : RegIdx).val := by decide
/-- All three outcomes of a comparison, in the witnessing states of the vectors T69, T71, T72. -/
theorem witness_CmpSetsFlagBySignedComparison : (1 : RegSel).toNat = (1 : RegIdx).val ∧
    (machine dflt 0 0xFFFFFFFF 0 0 0).regInt 1 < (machine dflt 0 0xFFFFFFFF 0 0 0).regInt 0 ∧
    (machine dflt 0x7FFFFFFF 0x80000000 0 0 0).regInt 1 < (machine dflt 0x7FFFFFFF 0x80000000 0 0 0).regInt 0 ∧
    (machine dflt 0 0 123 0 0).regInt 2 = (machine dflt 123 0 0 0 0).regInt 0 := by decide
theorem witness_JumpIfGoesToImmediateWhenEqual : State.reset.flag = .equal ∧
    (State.reset.setFlag .greater).flag ≠ .equal ∧ (State.reset.setFlag .less).flag ≠ .equal := by decide
/-- XLEN = 20, sums at both ends of the signed range: 524287, 524288, -524288, -524289; the same for INC. -/
theorem witness_OverflowDiffersFromExactSumByTwoToXlen :
    let s := machine tiny 524287 1 524288 0xFFFFF 0
    s.params.Admissible ∧ s.regInt 0 + s.regInt 4 < 2 ^ (s.xlen - 1) ∧ 2 ^ (s.xlen - 1) ≤ s.regInt 0 + s.regInt 1 ∧
    -(2 : Int) ^ (s.xlen - 1) ≤ s.regInt 2 + s.regInt 4 ∧ s.regInt 2 + s.regInt 3 < -(2 : Int) ^ (s.xlen - 1) ∧
    2 ^ (s.xlen - 1) ≤ s.regInt 0 + 1 ∧ s.regInt 3 + 1 < 2 ^ (s.xlen - 1) := by decide
/-- The selects 5 and 7, in each used field. -/
theorem witness_BadRegisterFieldFaults : ∀ i ∈ ([.load 5 0, .load 0 7, .store 5 0, .add 7 0 0, .add 0 5 0, .add 0 0 5, .cmp 5 0,
    .cmp 0 7, .inc 5, .move 7 1] : List Instr), i.wf = false := by decide
/-- The addresses -1 and 4 of four cells for LOAD, 4 for STORE. -/
theorem witness_DataAddressOutsideCapacityFaults : (machine tiny 0xFFFFF 4 0 0 0).regInt 0 < 0 ∧
    ((machine tiny 0xFFFFF 4 0 0 0).params.dmemWords : Int) ≤ (machine tiny 0xFFFFF 4 0 0 0).regInt 1 ∧
    (1 : RegSel).toNat = (1 : RegIdx).val ∧ (machine tiny 0 0 0 0 0).params.dmemWords ≤ (4 : Imm).toNat := by decide
/-- `pc` = IMEM_WORDS = 3; the opcodes 9 and 15. -/
theorem witness_FetchAndOpcodeFaults : ((last 0 0 0 0 0 0).setPc 3).status = .running ∧
    ((last 0 0 0 0 0 0).setPc 3).params.imemWords ≤ ((last 0 0 0 0 0 0).setPc 3).pc.toNat ∧
    (last 0x90000000 0 0 0 0 0).pc.toNat < (last 0x90000000 0 0 0 0 0).params.imemWords ∧
    9 ≤ ((last 0x90000000 0 0 0 0 0).word 2).toNat / 2 ^ 28 ∧ 9 ≤ ((last 0xF0000000 0 0 0 0 0).word 2).toNat / 2 ^ 28 := by
  decide
/-- A faulting step for each cause; each step is a `next`. -/
theorem witness_FaultingStepChangesOnlyTheLatches :
    (∃ t, step (last 0x90000000 0 0 0 0 0) = .next t ∧ t.status = .faulted) ∧
    (∃ t, step (last 0x8A000001 0 0 0 0 0) = .next t ∧ t.status = .faulted) ∧
    (∃ t, step ((last 0 0 0 0 0 0).setPc 3) = .next t ∧ t.status = .faulted) ∧
    (∃ t, step (last 0x10000004 0 0 0 0 0) = .next t ∧ t.status = .faulted) :=
  ⟨⟨_, rfl, rfl⟩, ⟨_, rfl, rfl⟩, ⟨_, rfl, rfl⟩, ⟨_, rfl, rfl⟩⟩
/-- Each of the four conditions, and none. -/
theorem witness_FirstFaultConditionIsReported : firstFault ((last 0 0 0 0 0 0).setPc 3) = .fetchFault ∧
    firstFault (last 0x9E000000 0 0 0 0 0) = .invalidOpcodeOp ∧ firstFault (last 0x0E000000 9 0 0 0 0) = .invalidOpcodeReg ∧
    firstFault (last 0x02000000 4 0 0 0 0) = .dataAddressFault ∧ firstFault (last 0x02000000 3 0 0 0 0) = .none ∧
    (last 0x02000000 3 0 0 0 0).status = .running := by decide
/-- A faulting step for each clause: `pc` = IMEM_WORDS, the opcodes 9 and 15, a select of 5, a LOAD at -1 and a STORE at 4. -/
theorem witness_OffendingValueIsRecoverable :
    ((∃ t, step ((last 0 0 0 0 0 0).setPc 3) = .next t ∧ t.status = .faulted) ∧
      fetchInstr ((last 0 0 0 0 0 0).setPc 3) = .error (.fetchFault 3)) ∧
    ((∃ t, step (last 0x90000000 0 0 0 0 0) = .next t ∧ t.status = .faulted) ∧
      fetchInstr (last 0x90000000 0 0 0 0 0) = .error (.invalidOpcodeOp 9) ∧
      9 ≤ ((last 0x90000000 0 0 0 0 0).word 2).toNat / 2 ^ 28) ∧
    ((∃ t, step (last 0xFFFFFFFF 0 0 0 0 0) = .next t ∧ t.status = .faulted) ∧
      fetchInstr (last 0xFFFFFFFF 0 0 0 0 0) = .error (.invalidOpcodeOp 15)) ∧
    ((∃ t, step (last 0x7A000000 0 0 0 0 0) = .next t ∧ t.status = .faulted) ∧
      fetchInstr (last 0x7A000000 0 0 0 0 0) = .ok (.inc 5) ∧ (Instr.inc 5).wf = false) ∧
    ((∃ t, step (last 0x02000000 0xFFFFF 0 0 0 0) = .next t ∧ t.status = .faulted) ∧
      fetchInstr (last 0x02000000 0xFFFFF 0 0 0 0) = .ok (.load 1 0) ∧ (Instr.load 1 0).wf = true ∧
      dataAddressOf (.load 1 0) (last 0x02000000 0xFFFFF 0 0 0 0) = some (-1)) ∧
    ((∃ t, step (last 0x10000004 0 0 0 0 0) = .next t ∧ t.status = .faulted) ∧
      fetchInstr (last 0x10000004 0 0 0 0 0) = .ok (.store 0 4) ∧ (Instr.store 0 4).wf = true ∧
      dataAddressOf (.store 0 4) (last 0x10000004 0 0 0 0 0) = some 4) :=
  ⟨⟨⟨_, rfl, rfl⟩, by decide⟩, ⟨⟨_, rfl, rfl⟩, by decide⟩, ⟨⟨_, rfl, rfl⟩, by decide⟩, ⟨⟨_, rfl, rfl⟩, by decide⟩,
    ⟨⟨_, rfl, rfl⟩, by decide⟩, ⟨⟨_, rfl, rfl⟩, by decide⟩⟩
/-- ADD R2 R0 R1 in a running, unfaulted engine: R3 is not written, R2 is not read and is written. -/
theorem witness_RegistersReadAndWrittenAsTabulated :
    (∃ t, exec (.add 2 0 1) State.reset = .next t ∧ t.faultCause = .none) ∧ State.reset.faultCause = .none ∧
    (Instr.add 2 0 1).regWritten.map BitVec.toNat ≠ some (3 : RegIdx).val ∧
    (2 : RegIdx).val ∉ (Instr.add 2 0 1).regsRead.map BitVec.toNat ∧
    (Instr.add 2 0 1).regWritten.map BitVec.toNat = some (2 : RegIdx).val := ⟨⟨_, rfl, by decide⟩, by decide⟩
theorem witness_FlagIsWrittenByCmpAndReadByJumpIfOnly :
    (∀ dst src1, Instr.inc 0 ≠ .cmp dst src1) ∧ (∃ t, exec (.inc 0) State.reset = .next t) ∧
    (∀ imm, Instr.cmp 0 4 ≠ .jumpIf imm) ∧ (Instr.cmp 0 4).wf = true ∧ (State.construct tiny).flag = State.reset.flag :=
  ⟨by simp, ⟨_, rfl⟩, by simp, by decide, rfl⟩
/-- A STORE to cell 3 beside cell 2. -/
theorem witness_DataCellChangesOnlyByStoreToIt : (machine tiny 7 0 0 0 0).dmem.wf ∧
    (∃ t, exec (.store 0 3) (machine tiny 7 0 0 0 0) = .next t ∧ t.cellNat 3 = 7) ∧
    storeAddress 3 ≠ (2 : Nat) := ⟨by decide, ⟨_, rfl, by decide⟩, by decide⟩
/-- A state reached by one step, and a STORE's. -/
theorem witness_InstructionMemoryIsFixedDuringRun :
    ∃ t, Reaches (last 0x10000003 7 0 0 0 0) t ∧ t.pc = 3 ∧ t.cellNat 3 = 7 := ⟨_, ⟨1, rfl⟩, by decide, by decide⟩
theorem witness_StepHaltsExactlyOnTerminate :
    (∃ t, step (last 0x50000000 0 0 0 0 0) = .next t ∧ t.status = .halted) ∧
    (∃ t, step (last 0x70000000 0 0 0 0 0) = .next t ∧ t.status = .running) ∧
    (∃ t, step (last 0x7A000000 0 0 0 0 0) = .next t ∧ t.status = .faulted) := ⟨⟨_, rfl, rfl⟩, ⟨_, rfl, rfl⟩, ⟨_, rfl, rfl⟩⟩
/-- JUMP, JUMP_IF taken and not taken, INC and a faulting INC, each at the last instruction address. -/
theorem witness_PcAdvancesByOneOrToJumpTarget :
    (∀ w ∈ [0x4007FFFF, 0x30000000, 0x70000000, 0x7A000000],
      (last w 0 0 0 0 0).Inv ∧ ((last w 0 0 0 0 0).setFlag .less).Inv) ∧
    decode 0x4007FFFF = .ok (.jump 524287) ∧ decode 0x30000000 = .ok (.jumpIf 0) ∧ decode 0x70000000 = .ok (.inc 0) ∧
    (∃ t, step (last 0x4007FFFF 0 0 0 0 0) = .next t ∧ t.status = .running) ∧
    (∃ t, step (last 0x30000000 0 0 0 0 0) = .next t ∧ t.status = .running) ∧
    (∃ t, step ((last 0x30000000 0 0 0 0 0).setFlag .less) = .next t ∧ t.status = .running) ∧
    (∃ t, step (last 0x70000000 0 0 0 0 0) = .next t ∧ t.status = .running) ∧
    (∃ t, step (last 0x7A000000 0 0 0 0 0) = .next t ∧ t.status = .faulted) :=
  ⟨by decide, by decide, by decide, by decide, ⟨_, rfl, rfl⟩, ⟨_, rfl, rfl⟩, ⟨_, rfl, rfl⟩, ⟨_, rfl, rfl⟩, ⟨_, rfl, rfl⟩⟩
/-- A STORE, whose step changes the memory, and a fault, from states that meet the invariant. -/
theorem witness_StepKeepsInvariant : (last 0x10000003 7 0 0 0 0).Inv ∧ (last 0x10000004 7 0 0 0 0).Inv ∧
    (∃ t, step (last 0x10000003 7 0 0 0 0) = .next t) ∧ (∃ t, step (last 0x10000004 7 0 0 0 0) = .next t) :=
  ⟨by decide, by decide, ⟨_, rfl⟩, ⟨_, rfl⟩⟩
/-- The target IMEM_WORDS = 3 itself, by JUMP and by JUMP_IF. -/
theorem witness_JumpBeyondMemoryFaultsAtNextFetch : (last 0x40000003 0 0 0 0 0).status = .running ∧
    (last 0x40000003 0 0 0 0 0).pc.toNat < (last 0x40000003 0 0 0 0 0).params.imemWords ∧
    decode ((last 0x40000003 0 0 0 0 0).word 2) = .ok (.jump 3) ∧ (last 0x30000003 0 0 0 0 0).flag = .equal ∧
    decode ((last 0x30000003 0 0 0 0 0).word 2) = .ok (.jumpIf 3) ∧
    (last 0x40000003 0 0 0 0 0).params.imemWords ≤ (3 : Imm).toNat := by decide
/-- The last cell; the address register is also the destination. -/
theorem witness_LoadAfterStoreReturnsStoredValue : (machine tiny 0xFFFFF 0 0 0 3).dmem.wf ∧
    (0 : RegSel).toNat = (0 : RegIdx).val ∧ (4 : RegSel).toNat = (4 : RegIdx).val ∧
    (machine tiny 0xFFFFF 0 0 0 3).regInt 4 = (3 : Imm).toNat ∧
    (3 : Imm).toNat < (machine tiny 0xFFFFF 0 0 0 3).params.dmemWords := by decide
/-- Registers that hold the same pattern, and registers that do not. -/
theorem witness_JumpIfAfterCmpTestsEquality : (0 : RegSel).toNat = (0 : RegIdx).val ∧
    (4 : RegSel).toNat = (4 : RegIdx).val ∧ (machine tiny 7 0 0 0 7).regNat 0 = (machine tiny 7 0 0 0 7).regNat 4 ∧
    (machine tiny 7 0 0 0 8).regNat 0 ≠ (machine tiny 7 0 0 0 8).regNat 4 := by decide
/-- A non-canonical word of opcode 4, and a JUMP to its own address. -/
theorem witness_JumpGoesToImmediate : (Fields.ofWord 0x4FF80002).opcode = 4 ∧
    (2 : Imm).toNat = (last 0x40000002 0 0 0 0 0).pc.toNat := by decide
/-- Two memories written in different orders, one of them through a value that is written back to 0. -/
theorem witness_CanonicalMemoriesThatReadAlikeAreEqual :
    Memory.write (Memory.write (Memory.write (Memory.write ([] : Memory 32) 3 7) 1 9) 2 5) 2 0 =
      Memory.write (Memory.write ([] : Memory 32) 1 9) 3 7 ∧
    Memory.wf (Memory.write (Memory.write ([] : Memory 32) 1 9) 3 7) := by decide
/-- Lengths 3 and 4 against IMEM_WORDS = 3; the elements 2^32-1, 2^32 and -1. -/
theorem witness_LoadProgramPlacesWordsFromZero : (State.construct tiny).params.imemWords < [0, 0, 0, (0 : Int)].length ∧
    [4294967295, 0, (0 : Int)].length ≤ (State.construct tiny).params.imemWords ∧
    (∀ w ∈ [4294967295, 0, (0 : Int)], 0 ≤ w ∧ w < 2 ^ 32) ∧ (∃ w ∈ [(4294967296 : Int)], w < 0 ∨ 2 ^ 32 ≤ w) ∧
    (∃ w ∈ [(-1 : Int)], w < 0 ∨ 2 ^ 32 ≤ w) := by decide
/-- Lengths 4 and 5 against DMEM_WORDS = 4; both ends of the 20-bit signed range, inside and outside. -/
theorem witness_LoadDataPlacesValuesVerbatim : (State.construct tiny).params.Admissible ∧
    (State.construct tiny).params.dmemWords < [0, 0, 0, 0, (0 : Int)].length ∧
    [524287, -524288, 0, (1 : Int)].length ≤ (State.construct tiny).params.dmemWords ∧
    (∀ v ∈ [524287, -524288, 0, (1 : Int)],
      -(2 : Int) ^ ((State.construct tiny).xlen - 1) ≤ v ∧ v < 2 ^ ((State.construct tiny).xlen - 1)) ∧
    (∃ v ∈ [(524288 : Int)], v < -(2 : Int) ^ ((State.construct tiny).xlen - 1) ∨ 2 ^ ((State.construct tiny).xlen - 1) ≤ v) ∧
    (∃ v ∈ [(-524289 : Int)], v < -(2 : Int) ^ ((State.construct tiny).xlen - 1) ∨ 2 ^ ((State.construct tiny).xlen - 1) ≤ v) := by
  decide
theorem witness_LoadedEnginesSatisfyInvariant : ∃ e e', constructEngine tiny = .ok e ∧
    hostRequests e [.loadProgram [0x70000000], .loadData [-1, 0, 3], .start] = .ok e' := ⟨_, _, rfl, rfl⟩
/-- A first load of each memory and a start succeed, with and without later requests. -/
theorem witness_LoadsAndStartHappenAtMostOnce :
    let e : Engine := ⟨State.construct tiny, false, false, false⟩
    (∃ e₁ e₂, hostRequest e (.loadProgram [1]) = .ok e₁ ∧ hostRequests e₁ [.loadData [2], .start] = .ok e₂) ∧
    (∃ e₁ e₂, hostRequest e (.loadData [2]) = .ok e₁ ∧ hostRequests e₁ [.loadProgram [1]] = .ok e₂) ∧
    ∃ e₁, hostRequest ⟨State.construct tiny, true, false, false⟩ .start = .ok e₁ :=
  ⟨⟨_, _, rfl, rfl⟩, ⟨_, _, rfl, rfl⟩, ⟨_, rfl⟩⟩
theorem witness_ProgramAndDataLoadsCommute : ∃ e', hostRequests ⟨State.construct tiny, false, false, false⟩
    [.loadProgram [1, 2, 3], .loadData [4, 3, 2, 1]] = .ok e' := ⟨_, rfl⟩
/-- T81 as a run: one step, TERMINATE counted. -/
theorem witness_RunEndAndStepCountAreUnique : ∃ t, EndsIn (last 0x50000000 0 0 0 0 0) t 1 := ⟨_, 1, rfl⟩
/-- A run that ends halted, one that ends faulted, and two states of a run. -/
theorem witness_RunEndsHaltedOrFaultedOrNever :
    (∃ t, EndsIn (last 0x50000000 0 0 0 0 0) t 1 ∧ t.status = .halted) ∧
    (∃ t, EndsIn (last 0x7A000000 0 0 0 0 0) t 0 ∧ t.status = .faulted) ∧
    Reaches State.reset State.reset := ⟨⟨_, ⟨1, rfl⟩, rfl⟩, ⟨_, ⟨1, rfl⟩, rfl⟩, ⟨0, rfl⟩⟩
/-- T77 at address 2, and the JUMP_IF to itself. -/
theorem witness_JumpToItselfRunsForever : (last 0x40000002 0 0 0 0 0).status = .running ∧
    (last 0x40000002 0 0 0 0 0).pc.toNat < (last 0x40000002 0 0 0 0 0).params.imemWords ∧
    (2 : Imm).toNat = (last 0x40000002 0 0 0 0 0).pc.toNat ∧
    decode ((last 0x40000002 0 0 0 0 0).word 2) = .ok (.jump 2) ∧ (last 0x30000002 0 0 0 0 0).flag = .equal ∧
    decode ((last 0x30000002 0 0 0 0 0).word 2) = .ok (.jumpIf 2) := by decide
/-- E3 again: a text that assembles, with a label, a forward reference and a comment. -/
theorem witness_AssembledSequenceFollowsInstructionLines :
    ∃ ws, Asm.compile (["# jump", "JUMP target", "target:", "INC R4"].map line) = .ok ws ∧ ws.length = 2 :=
  ⟨[0x40000001, 0x78000000], by decide, rfl⟩
/-- Both sides of the equivalence for the same text. -/
theorem witness_TwoPassAssemblyEqualsDirectEncoding :
    let lines := ["JUMP target", "target:", "INC R4"].map line
    ((Asm.labelIndices 0 lines).map Prod.fst).Nodup ∧
      Asm.directWords (Asm.labelIndices 0 lines) lines = .ok [0x40000001, 0x78000000] := by decide

end Sys2Proof.Tests
end

section
/-! The registers and the flag an instruction reads and writes (10_state.md R23, R27). Non-interference is proved
relationally: an instruction is performed in two states that differ in one register, or in the flag, both bodies are
taken apart bind by bind, and the two next states are compared. -/

namespace Sys2Proof

/-- The instruction has register `r` in its column "Registers read" (10_state.md R23). -/
abbrev Instr.Reads (i : Instr) (r : RegIdx) : Prop := r.val ∈ i.regsRead.map BitVec.toNat

/-- The instruction has register `r` in its column "Register written" (10_state.md R23). -/
abbrev Instr.Writes (i : Instr) (r : RegIdx) : Prop := i.regWritten.map BitVec.toNat = some r.val

namespace Machine

/-! ## Two bodies that fail alike, or succeed with related values -/

/-- Both computations fail with the same fault, or both succeed and their values are related. -/
def Alike {α β : Type} (R : α → β → Prop) : Except StepFault α → Except StepFault β → Prop
  | .ok a, .ok b => R a b
  | .error e, .error e' => e = e'
  | _, _ => False

/-- Both instructions answer a next state, and the two next states are related. -/
def NextAlike (R : State → State → Prop) (o o' : Out) : Prop := ∃ t t', o = .next t ∧ o' = .next t' ∧ R t t'

/-- Two bodies with the same first part are alike when they are for each value of it. -/
theorem alike_bind {α β γ : Type} {R : β → γ → Prop} (x : Except StepFault α) {f : α → Except StepFault β}
    {g : α → Except StepFault γ} (h : ∀ a, x = .ok a → Alike R (f a) (g a)) : Alike R (x >>= f) (x >>= g) := by
  cases x with
  | error e => exact rfl
  | ok a => exact h a rfl

/-- Alike bodies end in related next states, where taking a fault keeps the relation. -/
theorem nextAlike_settle {R : State → State → Prop} {s s' : State} {x x' : Except StepFault State}
    (hraise : ∀ e, R (s.raise e) (s'.raise e)) (h : Alike R x x') : NextAlike R (settle s x) (settle s' x') := by
  cases x with
  | error e =>
    cases x' with
    | error e' => obtain rfl : e = e' := h; exact ⟨_, _, rfl, rfl, hraise e⟩
    | ok t' => exact h.elim
  | ok t =>
    cases x' with
    | error e' => exact h.elim
    | ok t' => exact ⟨t, t', rfl, rfl, h⟩

/-- Two stores at one address, in states of one data capacity, fail alike or write the same cell. -/
theorem alike_memWrite {R : State → State → Prop} {s s' : State} {a : Int} {w : BitVec s.xlen} {w' : BitVec s'.xlen}
    {f g : State → Except StepFault State} (hindex : dataIndex s' a = dataIndex s a)
    (h : ∀ k, Alike R (f (s.setCell k w)) (g (s'.setCell k w'))) :
    Alike R (memWrite s a w >>= f) (memWrite s' a w' >>= g) := by
  rw [memWrite, memWrite, hindex, bind_assoc, bind_assoc]
  exact alike_bind _ fun k _ => h k

/-! ## JUMP_IF, case by case -/

theorem exec_jumpIf_taken {s : State} (h : s.flag = .equal) (imm : Imm) :
    exec (.jumpIf imm) s = .next (s.setPc (jumpTarget imm)) := by
  simp only [exec, execJumpIf, if_pos h]

theorem exec_jumpIf_untaken {s : State} (h : s.flag ≠ .equal) (imm : Imm) :
    exec (.jumpIf imm) s = .next s.nextPc := by
  simp only [exec, execJumpIf, if_neg h]

/-! ## Registers (R23) -/

/-- A second write of the same register replaces the first. -/
theorem setReg_setReg_same (s : State) (r : RegIdx) (v w : BitVec s.xlen) :
    (s.setReg r v).setReg r w = s.setReg r w := by
  simp [State.setReg]

/-- Writes of different registers commute. -/
theorem setReg_setReg_comm (s : State) {r d : RegIdx} (h : d ≠ r) (v w : BitVec s.xlen) :
    (s.setReg r v).setReg d w = (s.setReg d w).setReg r v := by
  have hval : r.val ≠ d.val := fun e => h (Fin.ext e.symm)
  simp [State.setReg, Vector.set_comm v w hval]

/-- `t'` is `t` but for the content of register `r`; and it is `t` itself where the instruction writes `r` and took no
fault. -/
def EqualButReg (r : RegIdx) (writes : Prop) (t t' : State) : Prop :=
  (∃ w : BitVec t.xlen, t' = t.setReg r w) ∧ (writes → t.faultCause = .none → t' = t)

/-- No fault's code is the code of "no fault". -/
theorem causeOf_ne_none (e : StepFault) : causeOf e ≠ .none := by
  cases e <;> simp [causeOf]

/-- A fault taken keeps the difference in `r`. -/
theorem equalButReg_raise (s : State) (r : RegIdx) (v : BitVec s.xlen) (writes : Prop) (e : StepFault) :
    EqualButReg r writes (s.raise e) ((s.setReg r v).raise e) :=
  ⟨⟨v, rfl⟩, fun _ h => absurd h (causeOf_ne_none e)⟩

/-- The end of an instruction that writes the same value to register `d` in both states: the write hides the difference
where `d` is `r`. -/
theorem equalButReg_setReg (s : State) (r : RegIdx) (v : BitVec s.xlen) (d : RegIdx) (w : BitVec s.xlen) :
    EqualButReg r (d = r) (s.setReg d w).nextPc ((s.setReg r v).setReg d w).nextPc := by
  by_cases hd : d = r
  · subst hd
    have heq := setReg_setReg_same s d v w
    refine ⟨⟨w, ?_⟩, fun _ _ => by rw [heq]⟩
    rw [heq]
    exact congrArg State.nextPc (setReg_setReg_same s d w w).symm
  · refine ⟨⟨v, ?_⟩, fun h => absurd h hd⟩
    exact congrArg State.nextPc (setReg_setReg_comm s hd v w)

/-- The same end for an instruction whose written field `dst` selects `d`. -/
theorem equalButReg_write {i : Instr} {dst : RegSel} {d : RegIdx} (hw : i.regWritten = some dst)
    (hd : regIndex dst = .ok d) (s : State) (r : RegIdx) (v w : BitVec s.xlen) :
    EqualButReg r (i.Writes r) (s.setReg d w).nextPc ((s.setReg r v).setReg d w).nextPc := by
  obtain ⟨hdiff, hsame⟩ := equalButReg_setReg s r v d w
  refine ⟨hdiff, fun hwrites => hsame (Fin.ext ?_)⟩
  rw [Instr.Writes, hw, Option.map_some, Option.some.injEq, regIndex_eq_ok.mp hd] at hwrites
  exact hwrites

/-- A register that the instruction reads holds what it held before the write of one that it does not read. -/
theorem setReg_reg_read {i : Instr} {r q : RegIdx} {src : RegSel} (hr : ¬ i.Reads r) (hsrc : src ∈ i.regsRead)
    (hq : regIndex src = .ok q) (s : State) (v : BitVec s.xlen) : (s.setReg r v).reg q = s.reg q := by
  refine State.setReg_reg_other s r v ?_
  rintro rfl
  exact hr (List.mem_map.mpr ⟨src, hsrc, regIndex_eq_ok.mp hq⟩)

/-- A register that an instruction does not read has no influence on its outcome but its own content, and not even that
where the instruction writes it and takes no fault. -/
theorem exec_setReg_unread (i : Instr) (s : State) (r : RegIdx) (v : BitVec s.xlen) (hr : ¬ i.Reads r) :
    NextAlike (EqualButReg r (i.Writes r)) (exec i s) (exec i (s.setReg r v)) := by
  have hraise := equalButReg_raise s r v (i.Writes r)
  cases i with
  | load dst src1 =>
    refine nextAlike_settle hraise (alike_bind _ fun d hd => alike_bind _ fun a ha => ?_)
    rw [setReg_reg_read hr (by simp [Instr.regsRead]) ha]
    exact alike_bind (memRead s _) fun w _ => equalButReg_write rfl hd s r v w
  | store dst imm =>
    refine nextAlike_settle hraise (alike_bind _ fun a ha => ?_)
    rw [setReg_reg_read hr (by simp [Instr.regsRead]) ha]
    exact alike_memWrite rfl fun k => ⟨⟨v, rfl⟩, nofun⟩
  | add dst src1 src2 =>
    refine nextAlike_settle hraise (alike_bind _ fun d hd => alike_bind _ fun a ha => alike_bind _ fun b hb => ?_)
    rw [setReg_reg_read hr (by simp [Instr.regsRead]) ha, setReg_reg_read hr (by simp [Instr.regsRead]) hb]
    exact equalButReg_write rfl hd s r v _
  | jumpIf imm =>
    by_cases hf : s.flag = .equal
    · exact ⟨_, _, exec_jumpIf_taken hf imm, exec_jumpIf_taken (s := s.setReg r v) hf imm, ⟨v, rfl⟩, nofun⟩
    · exact ⟨_, _, exec_jumpIf_untaken hf imm, exec_jumpIf_untaken (s := s.setReg r v) hf imm, ⟨v, rfl⟩, nofun⟩
  | jump imm => exact ⟨_, _, rfl, rfl, ⟨v, rfl⟩, nofun⟩
  | terminate => exact ⟨_, _, rfl, rfl, ⟨v, rfl⟩, nofun⟩
  | cmp dst src1 =>
    refine nextAlike_settle hraise (alike_bind _ fun a ha => alike_bind _ fun b hb => ?_)
    rw [setReg_reg_read hr (by simp [Instr.regsRead]) ha, setReg_reg_read hr (by simp [Instr.regsRead]) hb]
    exact ⟨⟨v, rfl⟩, nofun⟩
  | inc dst =>
    refine nextAlike_settle hraise (alike_bind _ fun d hd => ?_)
    rw [setReg_reg_read hr (by simp [Instr.regsRead]) hd]
    exact equalButReg_write rfl hd s r v _
  | move dst imm =>
    exact nextAlike_settle hraise (alike_bind _ fun d hd => equalButReg_write rfl hd s r v _)

/-- A completed write leaves every register that the instruction's row does not write. -/
theorem setReg_nextPc_regNat_unwritten {i : Instr} {dst : RegSel} {r d : RegIdx} (h : ¬ i.Writes r)
    (hw : i.regWritten = some dst) (hd : dst.toNat = d.val) (s : State) (v : BitVec s.xlen) :
    (s.setReg d v).nextPc.regNat r = s.regNat r := by
  refine State.setReg_regNat_other s d v ?_
  rintro rfl
  exact h (by simp [Instr.Writes, hw, hd])

/-- An instruction changes no register but the one its row writes. -/
theorem exec_regNat_unwritten {i : Instr} {s t : State} {r : RegIdx} (h : exec i s = .next t) (hr : ¬ i.Writes r) :
    t.regNat r = s.regNat r := by
  cases i with
  | load dst src1 =>
    obtain ⟨d, _, _, hd, _, _, _, rfl⟩ | ⟨e, rfl, _⟩ := execLoad_next h
    · exact setReg_nextPc_regNat_unwritten hr rfl hd s _
    · rfl
  | store dst imm => obtain ⟨_, _, _, rfl⟩ | ⟨e, rfl, _⟩ := execStore_next h <;> rfl
  | add dst src1 src2 =>
    obtain ⟨d, _, _, hd, _, _, rfl⟩ | ⟨_, rfl⟩ := execAdd_next h
    · exact setReg_nextPc_regNat_unwritten hr rfl hd s _
    · rfl
  | jumpIf imm => cases h; split <;> rfl
  | jump imm => cases h; rfl
  | terminate => cases h; rfl
  | cmp dst src1 => obtain ⟨_, _, _, _, rfl⟩ | ⟨_, rfl⟩ := execCmp_next h <;> rfl
  | inc dst =>
    obtain ⟨d, hd, rfl⟩ | ⟨_, rfl⟩ := execInc_next h
    · exact setReg_nextPc_regNat_unwritten hr rfl hd s _
    · rfl
  | move dst imm =>
    obtain ⟨d, hd, rfl⟩ | ⟨_, rfl⟩ := execMove_next h
    · exact setReg_nextPc_regNat_unwritten hr rfl hd s _
    · rfl

/-- The column "Registers read" names at most two registers. -/
theorem regsRead_length_le (i : Instr) : i.regsRead.length ≤ 2 := by
  cases i <;> simp [Instr.regsRead]

/-- Settles O32: the two next states of `exec_setReg_unread` differ by one register write. -/
theorem registersReadAndWrittenAsTabulated : Obligations.RegistersReadAndWrittenAsTabulated := by
  unfold Obligations.RegistersReadAndWrittenAsTabulated
  refine ⟨fun i s t r h hr => exec_regNat_unwritten h hr, regsRead_length_le, fun i s r v hr => ?_⟩
  obtain ⟨t, t', ht, ht', ⟨w, rfl⟩, hsame⟩ := exec_setReg_unread i s r v hr
  exact ⟨t, _, ht, ht', rfl, rfl, ⟨rfl, rfl⟩, fun _ => rfl, ⟨rfl, rfl⟩,
    fun q hq => State.setReg_regNat_other t r w hq, fun hw _ hc => by rw [hsame hw hc]⟩

/-! ## The flag (R27) -/

/-- `t'` is `t` but for the flag. -/
def EqualButFlag (t t' : State) : Prop := ∃ f, t' = t.setFlag f

/-- The flag has no influence on an instruction other than JUMP_IF, but for the flag itself. -/
theorem exec_setFlag (i : Instr) (s : State) (f : Flag) (hi : ∀ imm, i ≠ .jumpIf imm) :
    NextAlike EqualButFlag (exec i s) (exec i (s.setFlag f)) := by
  have hraise : ∀ e, EqualButFlag (s.raise e) ((s.setFlag f).raise e) := fun _ => ⟨f, rfl⟩
  cases i with
  | load dst src1 =>
    exact nextAlike_settle hraise (alike_bind _ fun d _ => alike_bind _ fun a _ =>
      alike_bind (memRead s (loadAddress (s.reg a))) fun w _ => ⟨f, rfl⟩)
  | store dst imm =>
    exact nextAlike_settle hraise (alike_bind _ fun a _ => alike_memWrite rfl fun k => ⟨f, rfl⟩)
  | add dst src1 src2 =>
    exact nextAlike_settle hraise (alike_bind _ fun d _ => alike_bind _ fun a _ => alike_bind _ fun b _ => ⟨f, rfl⟩)
  | jumpIf imm => exact absurd rfl (hi imm)
  | jump imm => exact ⟨_, _, rfl, rfl, f, rfl⟩
  | terminate => exact ⟨_, _, rfl, rfl, f, rfl⟩
  | cmp dst src1 =>
    exact nextAlike_settle hraise (alike_bind _ fun a _ => alike_bind _ fun b _ =>
      ⟨compareSigned (s.reg a) (s.reg b), rfl⟩)
  | inc dst => exact nextAlike_settle hraise (alike_bind _ fun d _ => ⟨f, rfl⟩)
  | move dst imm => exact nextAlike_settle hraise (alike_bind _ fun d _ => ⟨f, rfl⟩)

/-- A valid select names a register. -/
theorem regIndex_ok_of_valid {r : RegSel} (h : r.valid = true) : ∃ k, regIndex r = .ok k := by
  have hlt : r.toNat < 5 := by simpa [RegSel.valid, Nat.lt_succ_iff] using h
  exact ⟨⟨r.toNat, hlt⟩, regIndex_eq_ok.mpr rfl⟩

/-- A CMP of existing registers overwrites the flag: what it held before has no influence at all. -/
theorem exec_cmp_setFlag {dst src1 : RegSel} (h : (Instr.cmp dst src1).wf = true) (s : State) (f : Flag) :
    exec (.cmp dst src1) (s.setFlag f) = exec (.cmp dst src1) s := by
  have hvalid : dst.valid = true ∧ src1.valid = true := by simpa [Instr.wf, Instr.regFields] using h
  obtain ⟨a, ha⟩ := regIndex_ok_of_valid hvalid.1
  obtain ⟨b, hb⟩ := regIndex_ok_of_valid hvalid.2
  simp only [exec, execCmp, ha, hb, ok_bind, settle_ok]
  rfl

/-- No instruction but CMP changes the flag. -/
theorem exec_flag_of_ne_cmp {i : Instr} {s t : State} (hi : ∀ dst src1, i ≠ .cmp dst src1) (h : exec i s = .next t) :
    t.flag = s.flag := by
  cases i with
  | load dst src1 => obtain ⟨_, _, _, _, _, _, _, rfl⟩ | ⟨e, rfl, _⟩ := execLoad_next h <;> rfl
  | store dst imm => obtain ⟨_, _, _, rfl⟩ | ⟨e, rfl, _⟩ := execStore_next h <;> rfl
  | add dst src1 src2 => obtain ⟨_, _, _, _, _, _, rfl⟩ | ⟨_, rfl⟩ := execAdd_next h <;> rfl
  | jumpIf imm => cases h; split <;> rfl
  | jump imm => cases h; rfl
  | terminate => cases h; rfl
  | cmp dst src1 => exact absurd rfl (hi dst src1)
  | inc dst => obtain ⟨_, _, rfl⟩ | ⟨_, rfl⟩ := execInc_next h <;> rfl
  | move dst imm => obtain ⟨_, _, rfl⟩ | ⟨_, rfl⟩ := execMove_next h <;> rfl

/-- Settles O33: the two next states of `exec_setFlag` differ by one flag write, and are the same after a CMP. -/
theorem flagIsWrittenByCmpAndReadByJumpIfOnly : Obligations.FlagIsWrittenByCmpAndReadByJumpIfOnly := by
  unfold Obligations.FlagIsWrittenByCmpAndReadByJumpIfOnly
  refine ⟨fun i s t => exec_flag_of_ne_cmp, fun i s f hi => ?_, rfl, fun s imm hf => ?_⟩
  · obtain ⟨t, t', ht, ht', g, rfl⟩ := exec_setFlag i s f hi
    refine ⟨t, _, ht, ht', rfl, fun _ => rfl, fun _ => rfl, ⟨rfl, rfl⟩, ⟨rfl, rfl⟩, ?_⟩
    rintro ⟨dst, src1, rfl⟩ hwf
    rw [exec_cmp_setFlag hwf, ht, Host.Outcome.next.injEq] at ht'
    exact congrArg State.flag ht'.symm
  · exact ⟨_, exec_jumpIf_taken hf imm, uint_zext imm (by decide)⟩

end Machine
end Sys2Proof
end

section
/-! Encoding and decoding (30_encoding.md R73, R79, R81 to R83). `Encode` is the mixed-radix numeral of the five fields,
so extraction inverts it on both sides; what decoding loses is exactly the content of the fields the opcode does not
use, so the round trip of a word is the question whether clearing those fields changes it. -/

namespace Sys2Proof

/-! ## Words and their five fields -/

/-- R6: a field is the word shifted and reduced. -/
@[simp] theorem bitField_toNat (w : InstrWord) (lo width : Nat) :
    (bitField w lo width).toNat = w.toNat / 2 ^ lo % 2 ^ width :=
  BitVec.toNat_ofNat _ _

/-- Two field tuples are equal when their fields are the same numbers. -/
theorem Fields.eq_of_toNat_eq {f g : Fields} (hop : f.opcode.toNat = g.opcode.toNat) (hdst : f.dst.toNat = g.dst.toNat)
    (hsrc1 : f.src1.toNat = g.src1.toNat) (hsrc2 : f.src2.toNat = g.src2.toNat) (himm : f.imm.toNat = g.imm.toNat) :
    f = g := by
  cases f
  cases g
  simp only [Fields.mk.injEq]
  exact ⟨BitVec.eq_of_toNat_eq hop, BitVec.eq_of_toNat_eq hdst, BitVec.eq_of_toNat_eq hsrc1,
    BitVec.eq_of_toNat_eq hsrc2, BitVec.eq_of_toNat_eq himm⟩

/-- The widths of the five fields (R71), as bounds. -/
theorem Fields.toNat_lt (f : Fields) : f.opcode.toNat < 2 ^ 4 ∧ f.dst.toNat < 2 ^ 3 ∧ f.src1.toNat < 2 ^ 3 ∧
    f.src2.toNat < 2 ^ 3 ∧ f.imm.toNat < 2 ^ 19 :=
  ⟨f.opcode.isLt, f.dst.isLt, f.src1.isLt, f.src2.isLt, f.imm.isLt⟩

/-- The sum of R81 needs no reduction modulo 2^32: each field stays below the weight of the next one. -/
theorem Fields.encode_toNat (f : Fields) : f.encode.toNat =
    f.opcode.toNat * 2 ^ 28 + f.dst.toNat * 2 ^ 25 + f.src1.toNat * 2 ^ 22 + f.src2.toNat * 2 ^ 19 + f.imm.toNat := by
  obtain ⟨hop, hdst, hsrc1, hsrc2, himm⟩ := f.toNat_lt
  rw [Fields.encode, BitVec.toNat_ofNat]
  exact Nat.mod_eq_of_lt (by omega)

/-- The opcode is the topmost field: what lies above its lowest bit is below 2^4 already. -/
theorem Fields.ofWord_opcode_toNat (w : InstrWord) : (Fields.ofWord w).opcode.toNat = w.toNat / 2 ^ 28 := by
  have hw := w.isLt
  exact (bitField_toNat w 28 4).trans (Nat.mod_eq_of_lt (by omega))

/-- The literal is the lowest field. -/
theorem Fields.ofWord_imm_toNat (w : InstrWord) : (Fields.ofWord w).imm.toNat = w.toNat % 2 ^ 19 := by
  rw [Fields.ofWord, bitField_toNat, Nat.pow_zero, Nat.div_one]

/-- Extraction gives back the fields that were encoded. -/
@[simp] theorem Fields.ofWord_encode (f : Fields) : Fields.ofWord f.encode = f := by
  obtain ⟨hop, hdst, hsrc1, hsrc2, himm⟩ := f.toNat_lt
  apply Fields.eq_of_toNat_eq <;> simp only [Fields.ofWord, bitField_toNat, Fields.encode_toNat] <;> omega

/-- The five fields cover the word: encoding the extracted fields gives it back. -/
@[simp] theorem Fields.encode_ofWord (w : InstrWord) : (Fields.ofWord w).encode = w := by
  have hw := w.isLt
  apply BitVec.eq_of_toNat_eq
  simp only [Fields.encode_toNat, Fields.ofWord, bitField_toNat]
  omega

/-- Settles O2: each slice by `bitField_toNat`, the left inverse by the mixed-radix sum `Fields.encode_toNat`. -/
theorem fieldExtractionIsSlicesAndInvertsEncode : Obligations.FieldExtractionIsSlicesAndInvertsEncode := by
  unfold Obligations.FieldExtractionIsSlicesAndInvertsEncode
  exact ⟨fun w => ⟨Fields.ofWord_opcode_toNat w, bitField_toNat w 25 3, bitField_toNat w 22 3, bitField_toNat w 19 3,
    Fields.ofWord_imm_toNat w⟩, Fields.ofWord_encode⟩

/-- A tuple is the field tuple of a word exactly when it encodes to that word. -/
theorem Fields.encode_eq_iff {f : Fields} {w : InstrWord} : f.encode = w ↔ f = Fields.ofWord w := by
  constructor
  · rintro rfl
    exact (Fields.ofWord_encode f).symm
  · rintro rfl
    exact Fields.encode_ofWord w

/-! ## The fields an opcode uses -/

/-- A field that is used, or 0 in its place. -/
def keepIf {n : Nat} (use : Bool) (x : BitVec n) : BitVec n := if use then x else 0

theorem keepIf_eq_self_iff {n : Nat} (use : Bool) (x : BitVec n) : keepIf use x = x ↔ (use || x == 0) = true := by
  cases use
  · simpa [keepIf] using eq_comm
  · simp [keepIf]

/-- The tuple with 0 in every field that its opcode does not use (R75, R82). -/
def Fields.clearUnused (f : Fields) : Fields where
  opcode := f.opcode
  dst := keepIf (shapeOf f.opcode).useDst f.dst
  src1 := keepIf (shapeOf f.opcode).useSrc1 f.src1
  src2 := keepIf (shapeOf f.opcode).useSrc2 f.src2
  imm := keepIf (shapeOf f.opcode).useImm f.imm

/-- Canonical is: a defined opcode, and nothing to clear. -/
theorem Fields.canonical_iff (f : Fields) : f.canonical = true ↔ f.opValid = true ∧ f.clearUnused = f := by
  obtain ⟨op, dst, src1, src2, imm⟩ := f
  simp only [Fields.canonical, Fields.clearUnused, Bool.and_eq_true, Fields.mk.injEq, true_and, keepIf_eq_self_iff,
    and_assoc]

/-- An opcode names no instruction (R77) or is one of the nine rows of the opcode map (R76). -/
theorem opcode_cases : ∀ op : Opcode,
    9 ≤ op.toNat ∨ op = 0 ∨ op = 1 ∨ op = 2 ∨ op = 3 ∨ op = 4 ∨ op = 5 ∨ op = 6 ∨ op = 7 ∨ op = 8 := by decide

/-- R77: the opcodes 9 to 15 are rejected. -/
theorem Fields.toInstr_undefined {f : Fields} (h : 9 ≤ f.opcode.toNat) :
    f.toInstr = .error (.undefinedOpcode f.opcode) := by
  unfold Fields.toInstr
  split
  case h_10 => rfl
  all_goals omega

/-- What decoding keeps: the opcode is a defined one, and the fields of the instruction are those of the word with the
unused ones cleared. -/
theorem Fields.toInstr_ok {f : Fields} {i : Instr} (h : f.toInstr = .ok i) :
    f.opValid = true ∧ i.fields = f.clearUnused := by
  obtain ⟨op, dst, src1, src2, imm⟩ := f
  obtain hop | rfl | rfl | rfl | rfl | rfl | rfl | rfl | rfl | rfl := opcode_cases op
  · rw [Fields.toInstr_undefined hop] at h
    cases h
  all_goals
    cases h
    exact ⟨rfl, rfl⟩

/-! ## Instructions and their words -/

/-- Every instruction follows its row of the opcode map. -/
theorem shape_statement : ∀ i : Instr, Laws.Shape.Statement i
  | .load dst src1 => Laws.Shape.load dst src1
  | .store dst imm => Laws.Shape.store dst imm
  | .add dst src1 src2 => Laws.Shape.add dst src1 src2
  | .jumpIf imm => Laws.Shape.jumpIf imm
  | .jump imm => Laws.Shape.jump imm
  | .terminate => Laws.Shape.terminate
  | .cmp dst src1 => Laws.Shape.cmp dst src1
  | .inc dst => Laws.Shape.inc dst
  | .move dst imm => Laws.Shape.move dst imm

/-- An instruction's fields are 0 wherever its opcode does not use them. -/
theorem Instr.fields_canonical (i : Instr) : i.fields.canonical = true := (shape_statement i).1

/-- An instruction's fields name that instruction. -/
@[simp] theorem Instr.toInstr_fields (i : Instr) : i.fields.toInstr = .ok i := by
  cases i <;> rfl

/-- The fields of an instruction's word are its opcode and its operands in their slots. -/
@[simp] theorem ofWord_encode (i : Instr) : Fields.ofWord (encode i) = i.fields := Fields.ofWord_encode i.fields

/-- R83: decoding inverts encoding. -/
@[simp] theorem decode_encode (i : Instr) : decode (encode i) = .ok i := by
  rw [decode, ofWord_encode, Instr.toInstr_fields]

/-- R83, the converse: a word that decodes is the encoding of its instruction exactly when it is canonical. -/
theorem encode_eq_iff_canonical {w : InstrWord} {i : Instr} (h : decode w = .ok i) :
    encode i = w ↔ (Fields.ofWord w).canonical = true := by
  obtain ⟨hop, hfields⟩ := Fields.toInstr_ok h
  calc encode i = w
    _ ↔ i.fields = Fields.ofWord w := Fields.encode_eq_iff
    _ ↔ (Fields.ofWord w).clearUnused = Fields.ofWord w := by rw [hfields]
    _ ↔ (Fields.ofWord w).canonical = true := by simp only [Fields.canonical_iff, hop, true_and]

/-- Settles O4: the round trip from the instruction is extraction inverting `Encode`; the one from the word turns on
`Fields.toInstr_ok`, that decoding clears the unused fields and nothing else. -/
theorem decodeInvertsEncodeExactlyOnCanonicalWords : Obligations.DecodeInvertsEncodeExactlyOnCanonicalWords := by
  unfold Obligations.DecodeInvertsEncodeExactlyOnCanonicalWords
  exact ⟨fun i => ⟨decode_encode i, ofWord_encode i, Instr.fields_canonical i⟩, fun _ _ => encode_eq_iff_canonical⟩

end Sys2Proof
end

section
/-! JUMP (42_control.md R141, R143): its word, and its one effect, which is to write the immediate to `pc`. -/

namespace Sys2Proof

/-- Opcode 4 alone makes a word a JUMP (R76): whatever stands in its register fields is dropped. -/
theorem decode_of_opcode_jump {w : InstrWord} (h : (Fields.ofWord w).opcode = 4) :
    decode w = .ok (.jump (Fields.ofWord w).imm) := by
  rw [decode, Fields.toInstr, h]
  rfl

/-- The sum of R81 for a JUMP, whose register fields are 0. -/
theorem encode_jump_toNat (imm : Imm) : (encode (.jump imm)).toNat = 0x40000000 + imm.toNat := by
  rw [encode, Fields.encode_toNat]
  simp [Instr.fields]

namespace Machine

/-- A jump's target is the immediate itself: `pc` is one bit wider (R143). -/
theorem jumpTarget_toNat (imm : Imm) : (jumpTarget imm).toNat = imm.toNat := uint_zext imm (by decide)

theorem exec_jump (imm : Imm) (s : State) : exec (.jump imm) s = .next (s.setPc (jumpTarget imm)) := rfl

/-- A jump to the address in `pc` is no change. -/
theorem setPc_jumpTarget_self {s : State} {imm : Imm} (h : imm.toNat = s.pc.toNat) : s.setPc (jumpTarget imm) = s := by
  have hpc : jumpTarget imm = s.pc := BitVec.eq_of_toNat_eq ((jumpTarget_toNat imm).trans h)
  rw [hpc]
  rfl

/-- Settles O22: the next state of `exec_jump` is one write of `pc`, so every other field is that of `s`. -/
theorem jumpGoesToImmediate : Obligations.JumpGoesToImmediate := by
  unfold Obligations.JumpGoesToImmediate
  refine ⟨fun _ => decode_of_opcode_jump, encode_jump_toNat, fun s imm => ?_⟩
  exact ⟨_, exec_jump imm s, jumpTarget_toNat imm, fun _ => rfl, fun _ => rfl, rfl, ⟨rfl, rfl⟩, ⟨rfl, rfl⟩,
    setPc_jumpTarget_self⟩

end Machine
end Sys2Proof
end

section
/-! What an instruction does: its writes where nothing is in their way, and the two faults it can take (10_state.md R31
steps 4 to 6). The register check, the data address and the completed effect are separate lemmas, so that a claim about
a step cites the one that applies. -/

namespace Sys2Proof.Machine

/-! ## Selects (10_state.md R22) -/

theorem valid_of_select {r : RegSel} {k : RegIdx} (h : r.toNat = k.val) : r.valid = true :=
  decide_eq_true (h ▸ Nat.le_of_lt_succ k.isLt)

/-- Every used register field of a well-formed instruction names a register. -/
theorem exists_regIdx_of_wf {i : Instr} (h : i.wf = true) {r : RegSel} (hr : r ∈ i.regFields) :
    ∃ k : RegIdx, r.toNat = k.val :=
  (regIndex_ok_of_valid (List.all_eq_true.mp h r hr)).imp fun _ => regIndex_eq_ok.mp

/-- What is read through a select that names register `k` is read from `k`. -/
theorem dite_of_select {α : Type} {r : RegSel} {k : RegIdx} (h : r.toNat = k.val) (f : RegIdx → α) (x : α) :
    (if hlt : r.toNat < 5 then f ⟨r.toNat, hlt⟩ else x) = f k :=
  (dif_pos (h ▸ k.isLt)).trans (congrArg f (Fin.ext h))

/-! ## The meanings, forward -/

section Completed

variable {s : State} {dst src1 src2 : RegSel} {d a b : RegIdx}

theorem exec_load_of_regs {k : Nat} (hd : dst.toNat = d.val) (ha : src1.toNat = a.val) (hk : s.regInt a = k)
    (hlt : k < s.params.dmemWords) : exec (.load dst src1) s = .next (s.setReg d (s.cell k)).nextPc := by
  have hv : memRead s (loadAddress (s.reg a)) = .ok (s.cell k) := memRead_eq_ok.mpr ⟨k, hk, hlt, rfl⟩
  simp only [exec, execLoad, regIndex_eq_ok.mpr hd, regIndex_eq_ok.mpr ha, hv, ok_bind, settle_ok, aluPass]

theorem exec_store_of_reg {imm : Imm} (hd : dst.toNat = d.val) (hlt : imm.toNat < s.params.dmemWords) :
    exec (.store dst imm) s = .next (s.setCell imm.toNat (s.reg d)).nextPc := by
  have hw : memWrite s (storeAddress imm) (s.reg d) = .ok (s.setCell imm.toNat (s.reg d)) :=
    memWrite_eq_ok.mpr ⟨imm.toNat, rfl, hlt, rfl⟩
  simp only [exec, execStore, regIndex_eq_ok.mpr hd, hw, ok_bind, settle_ok]

theorem exec_add_of_regs (hd : dst.toNat = d.val) (ha : src1.toNat = a.val) (hb : src2.toNat = b.val) :
    exec (.add dst src1 src2) s = .next (s.setReg d (aluAdd (s.reg a) (s.reg b))).nextPc := by
  simp only [exec, execAdd, regIndex_eq_ok.mpr hd, regIndex_eq_ok.mpr ha, regIndex_eq_ok.mpr hb, ok_bind, settle_ok]

theorem exec_inc_of_reg (hd : dst.toNat = d.val) :
    exec (.inc dst) s = .next (s.setReg d (aluInc (s.reg d))).nextPc := by
  simp only [exec, execInc, regIndex_eq_ok.mpr hd, ok_bind, settle_ok]

theorem exec_cmp_of_regs (ha : dst.toNat = a.val) (hb : src1.toNat = b.val) :
    exec (.cmp dst src1) s = .next (s.setFlag (compareSigned (s.reg a) (s.reg b))).nextPc := by
  simp only [exec, execCmp, regIndex_eq_ok.mpr ha, regIndex_eq_ok.mpr hb, ok_bind, settle_ok]

theorem exec_move_of_reg {imm : Imm} (hd : dst.toNat = d.val) :
    exec (.move dst imm) s = .next (s.setReg d (zext s.xlen imm)).nextPc := by
  simp only [exec, execMove, regIndex_eq_ok.mpr hd, ok_bind, settle_ok, aluPass, moveLiteral]

theorem exec_terminate (s : State) : exec .terminate s = .next s.nextPc.halt := rfl

end Completed

/-! ## The two faults -/

/-- A body that starts with a register check fails with that check's fault if it does so wherever the check succeeds. -/
theorem regIndex_bind_error {α : Type} {r : RegSel} {f : RegIdx → Except StepFault α}
    (h : r.valid = true → ∀ k, f k = .error .invalidOpcodeReg) : (regIndex r >>= f) = .error .invalidOpcodeReg := by
  cases hr : regIndex r with
  | ok k => exact h (valid_of_select (regIndex_eq_ok.mp hr)) k
  | error e => rw [(regIndex_eq_error.mp hr).2]; rfl

/-- R78, R162: a used register field of 5, 6 or 7 faults, in every state. -/
theorem exec_of_not_wf {i : Instr} (h : i.wf = false) (s : State) : exec i s = .next (s.raise .invalidOpcodeReg) := by
  cases i with
  | load dst src1 =>
    refine congrArg (settle s) (regIndex_bind_error fun hd _ => regIndex_bind_error fun ha _ => ?_)
    simp [Instr.wf, Instr.regFields, hd, ha] at h
  | store dst imm =>
    refine congrArg (settle s) (regIndex_bind_error fun hd _ => ?_)
    simp [Instr.wf, Instr.regFields, hd] at h
  | add dst src1 src2 =>
    refine congrArg (settle s) (regIndex_bind_error fun hd _ => regIndex_bind_error fun ha _ =>
      regIndex_bind_error fun hb _ => ?_)
    simp [Instr.wf, Instr.regFields, hd, ha, hb] at h
  | jumpIf imm => cases h
  | jump imm => cases h
  | terminate => cases h
  | cmp dst src1 =>
    refine congrArg (settle s) (regIndex_bind_error fun ha _ => regIndex_bind_error fun hb _ => ?_)
    simp [Instr.wf, Instr.regFields, ha, hb] at h
  | inc dst =>
    refine congrArg (settle s) (regIndex_bind_error fun hd _ => ?_)
    simp [Instr.wf, Instr.regFields, hd] at h
  | move dst imm =>
    refine congrArg (settle s) (regIndex_bind_error fun hd _ => ?_)
    simp [Instr.wf, Instr.regFields, hd] at h

/-- The data address `k` is inside data memory (20_memory.md R53, R54). -/
abbrev InData (s : State) (k : Int) : Prop := 0 ≤ k ∧ k < s.params.dmemWords

theorem exec_load_outside {s : State} {dst src1 : RegSel} {d a : RegIdx} (hd : dst.toNat = d.val)
    (ha : src1.toNat = a.val) (hk : ¬ InData s (s.regInt a)) :
    exec (.load dst src1) s = .next (s.raise (.dataAddressFault (s.regInt a))) := by
  have hv : memRead s (loadAddress (s.reg a)) = .error (.dataAddressFault (s.regInt a)) :=
    memRead_eq_error.mpr ⟨hk, rfl⟩
  simp only [exec, execLoad, regIndex_eq_ok.mpr hd, regIndex_eq_ok.mpr ha, hv, ok_bind, error_bind, settle_error]

theorem exec_store_outside {s : State} {dst : RegSel} {imm : Imm} {d : RegIdx} (hd : dst.toNat = d.val)
    (hk : ¬ InData s imm.toNat) : exec (.store dst imm) s = .next (s.raise (.dataAddressFault imm.toNat)) := by
  have hw : memWrite s (storeAddress imm) (s.reg d) = .error (.dataAddressFault imm.toNat) :=
    memWrite_eq_error.mpr ⟨hk, rfl⟩
  simp only [exec, execStore, regIndex_eq_ok.mpr hd, hw, ok_bind, error_bind, settle_error]

/-- The address of a LOAD whose address register exists. -/
theorem dataAddressOf_load {dst src1 : RegSel} {a : RegIdx} (ha : src1.toNat = a.val) (s : State) :
    dataAddressOf (.load dst src1) s = some (s.regInt a) :=
  dite_of_select ha (fun k => some (s.regInt k)) none

/-- R164: a well-formed instruction whose data address is outside data memory faults with that address. -/
theorem exec_outside {i : Instr} {s : State} {k : Int} (hwf : i.wf = true) (hi : dataAddressOf i s = some k)
    (hk : ¬ InData s k) : exec i s = .next (s.raise (.dataAddressFault k)) := by
  cases i with
  | load dst src1 =>
    obtain ⟨d, hd⟩ := exists_regIdx_of_wf hwf (r := dst) (by simp [Instr.regFields])
    obtain ⟨a, ha⟩ := exists_regIdx_of_wf hwf (r := src1) (by simp [Instr.regFields])
    rw [dataAddressOf_load ha, Option.some.injEq] at hi
    subst hi
    exact exec_load_outside hd ha hk
  | store dst imm =>
    obtain ⟨d, hd⟩ := exists_regIdx_of_wf hwf (r := dst) (by simp [Instr.regFields])
    cases hi
    exact exec_store_outside hd hk
  | _ => cases hi

/-! ## Completion: what happens to the latches and to `pc` -/

/-- `pc` after the instruction completes (10_state.md R25). -/
def pcAfter (i : Instr) (s : State) : PcWord :=
  match i with
  | .jump imm => jumpTarget imm
  | .jumpIf imm => if s.flag = .equal then jumpTarget imm else s.pc + 1
  | _ => s.pc + 1

/-- The status after the instruction completes (42_control.md R142). -/
def statusAfter (i : Instr) (s : State) : RunStatus :=
  match i with
  | .terminate => .halted
  | _ => s.status

/-- `t` is a state in which the instruction has completed. -/
structure Completes (i : Instr) (s t : State) : Prop where
  pc : t.pc = pcAfter i s
  status : t.status = statusAfter i s
  faultCause : t.faultCause = s.faultCause

/-- A well-formed instruction that makes no access outside data memory completes. -/
theorem exec_completes {i : Instr} {s : State} (hwf : i.wf = true)
    (hk : ∀ k, dataAddressOf i s = some k → InData s k) : ∃ t, exec i s = .next t ∧ Completes i s t := by
  cases i with
  | load dst src1 =>
    obtain ⟨d, hd⟩ := exists_regIdx_of_wf hwf (r := dst) (by simp [Instr.regFields])
    obtain ⟨a, ha⟩ := exists_regIdx_of_wf hwf (r := src1) (by simp [Instr.regFields])
    obtain ⟨h0, hlt⟩ := hk _ (dataAddressOf_load ha s)
    exact ⟨_, exec_load_of_regs hd ha (Int.toNat_of_nonneg h0).symm (by omega), rfl, rfl, rfl⟩
  | store dst imm =>
    obtain ⟨d, hd⟩ := exists_regIdx_of_wf hwf (r := dst) (by simp [Instr.regFields])
    obtain ⟨_, hlt⟩ := hk _ rfl
    exact ⟨_, exec_store_of_reg hd (Int.ofNat_lt.mp hlt), rfl, rfl, rfl⟩
  | add dst src1 src2 =>
    obtain ⟨d, hd⟩ := exists_regIdx_of_wf hwf (r := dst) (by simp [Instr.regFields])
    obtain ⟨a, ha⟩ := exists_regIdx_of_wf hwf (r := src1) (by simp [Instr.regFields])
    obtain ⟨b, hb⟩ := exists_regIdx_of_wf hwf (r := src2) (by simp [Instr.regFields])
    exact ⟨_, exec_add_of_regs hd ha hb, rfl, rfl, rfl⟩
  | jumpIf imm =>
    by_cases hf : s.flag = .equal
    · exact ⟨_, exec_jumpIf_taken hf imm, (if_pos hf).symm, rfl, rfl⟩
    · exact ⟨_, exec_jumpIf_untaken hf imm, (if_neg hf).symm, rfl, rfl⟩
  | jump imm => exact ⟨_, exec_jump imm s, rfl, rfl, rfl⟩
  | terminate => exact ⟨_, exec_terminate s, rfl, rfl, rfl⟩
  | cmp dst src1 =>
    obtain ⟨a, ha⟩ := exists_regIdx_of_wf hwf (r := dst) (by simp [Instr.regFields])
    obtain ⟨b, hb⟩ := exists_regIdx_of_wf hwf (r := src1) (by simp [Instr.regFields])
    exact ⟨_, exec_cmp_of_regs ha hb, rfl, rfl, rfl⟩
  | inc dst =>
    obtain ⟨d, hd⟩ := exists_regIdx_of_wf hwf (r := dst) (by simp [Instr.regFields])
    exact ⟨_, exec_inc_of_reg hd, rfl, rfl, rfl⟩
  | move dst imm =>
    obtain ⟨d, hd⟩ := exists_regIdx_of_wf hwf (r := dst) (by simp [Instr.regFields])
    exact ⟨_, exec_move_of_reg hd, rfl, rfl, rfl⟩

/-- The three outcomes of an instruction, in the order in which they are decided (60_exceptions.md R167). -/
theorem exec_outcome (i : Instr) (s : State) :
    (i.wf = false ∧ exec i s = .next (s.raise .invalidOpcodeReg)) ∨
    (i.wf = true ∧ ∃ k, dataAddressOf i s = some k ∧ ¬ InData s k ∧ exec i s = .next (s.raise (.dataAddressFault k))) ∨
    (i.wf = true ∧ (∀ k, dataAddressOf i s = some k → InData s k) ∧ ∃ t, exec i s = .next t ∧ Completes i s t) := by
  cases hwf : i.wf with
  | false => exact .inl ⟨rfl, exec_of_not_wf hwf s⟩
  | true =>
    by_cases hk : ∀ k, dataAddressOf i s = some k → InData s k
    · exact .inr (.inr ⟨rfl, hk, exec_completes hwf hk⟩)
    · simp only [not_forall] at hk
      obtain ⟨k, hi, hout⟩ := hk
      exact .inr (.inl ⟨rfl, k, hi, hout, exec_outside hwf hi hout⟩)

/-- A next state is one in which the instruction has completed, or a fault taken. -/
theorem exec_completes_or_raises {i : Instr} {s t : State} (h : exec i s = .next t) :
    Completes i s t ∨ ∃ e, t = s.raise e := by
  obtain ⟨-, h'⟩ | ⟨-, k, -, -, h'⟩ | ⟨-, -, t', h', hc⟩ := exec_outcome i s
  all_goals
    rw [h', Host.Outcome.next.injEq] at h
    subst h
  · exact .inr ⟨_, rfl⟩
  · exact .inr ⟨_, rfl⟩
  · exact .inl hc

/-! ## The step of a running engine -/

theorem step_of_fetchInstr_ok {s : State} {i : Instr} (hs : s.status = .running) (h : fetchInstr s = .ok i) :
    step s = exec i s := by
  simp only [step, hs, h]

theorem step_of_fetchInstr_error {s : State} {e : StepFault} (hs : s.status = .running)
    (h : fetchInstr s = .error e) : step s = .next (s.raise e) := by
  simp only [step, hs, h]

/-- R31: inside instruction memory, the step is the decoded instruction. -/
theorem step_of_decode {s : State} {i : Instr} (hs : s.status = .running) (hpc : s.pc.toNat < s.params.imemWords)
    (hi : decode (s.word s.pc.toNat) = .ok i) : step s = exec i s :=
  step_of_fetchInstr_ok hs (fetchInstr_eq_ok.mpr ⟨hpc, hi⟩)

/-- A step that answers a state which is not faulted has completed its instruction. -/
theorem step_completes_or_raises {s t : State} (h : step s = .next t) :
    (∃ i, fetchInstr s = .ok i ∧ exec i s = .next t ∧ Completes i s t) ∨ ∃ e, t = s.raise e := by
  obtain ⟨-, ⟨i, hi, ht⟩ | ⟨e, -, rfl⟩⟩ := step_next h
  · exact (exec_completes_or_raises ht).imp_left fun hc => ⟨i, hi, ht, hc⟩
  · exact .inr ⟨e, rfl⟩

end Sys2Proof.Machine
end

section
/-! What every step keeps: the invariant of an engine, and, along a whole run, its parameters and its program
(10_state.md R26, R29, R33; 20_memory.md R62). -/

namespace Sys2Proof.Machine

/-! ## The invariant, update by update -/

section Updates

variable {s : State}

theorem inv_setReg (h : s.Inv) (r : RegIdx) (v : BitVec s.xlen) : (s.setReg r v).Inv := h

theorem inv_setFlag (h : s.Inv) (f : Flag) : (s.setFlag f).Inv := h

theorem inv_setPc (h : s.Inv) {t : PcWord} (ht : t.toNat ≤ 2 ^ 19) : (s.setPc t).Inv := by
  obtain ⟨hp, -, hmem⟩ := h
  exact ⟨hp, ht, hmem⟩

theorem inv_setCell (h : s.Inv) {a : Nat} (ha : a < s.params.dmemWords) (v : BitVec s.xlen) :
    (s.setCell a v).Inv := by
  obtain ⟨hp, hpc, hiwf, hicap, hdwf, hdcap, hlatch⟩ := h
  exact ⟨hp, hpc, hiwf, hicap, Memory.wf_write hdwf a v, Memory.within_write hdcap ha v, hlatch⟩

theorem inv_raise (h : s.Inv) (e : StepFault) : (s.raise e).Inv := by
  obtain ⟨hp, hpc, hiwf, hicap, hdwf, hdcap, -⟩ := h
  exact ⟨hp, hpc, hiwf, hicap, hdwf, hdcap, fun _ => causeOf_ne_none e, fun _ => rfl⟩

theorem inv_halt (h : s.Inv) (hs : s.status = .running) : s.halt.Inv := by
  obtain ⟨hp, hpc, hiwf, hicap, hdwf, hdcap, hlatch⟩ := h
  refine ⟨hp, hpc, hiwf, hicap, hdwf, hdcap, nofun, fun hc => absurd (hlatch.mpr hc) ?_⟩
  simp [hs]

/-- R5: the bound of instruction memory. -/
theorem imemWords_le (h : s.Inv) : s.params.imemWords ≤ 2 ^ 19 := by
  obtain ⟨⟨-, -, hcap, -⟩, -⟩ := h
  exact hcap

/-- R26: an instruction executes below the capacity, so the next address does not wrap. -/
theorem pc_succ_toNat (h : s.Inv) (hpc : s.pc.toNat < s.params.imemWords) : (s.pc + 1).toNat = s.pc.toNat + 1 := by
  have hlt : s.pc.toNat + 1 < 2 ^ 20 := Nat.lt_of_le_of_lt (hpc.trans_le (imemWords_le h)) (by decide)
  exact (BitVec.toNat_add s.pc 1).trans (Nat.mod_eq_of_lt hlt)

theorem inv_nextPc (h : s.Inv) (hpc : s.pc.toNat < s.params.imemWords) : s.nextPc.Inv := by
  refine inv_setPc h ?_
  have hcap := imemWords_le h
  rw [pc_succ_toNat h hpc]
  omega

end Updates

theorem jumpTarget_le (imm : Imm) : (jumpTarget imm).toNat ≤ 2 ^ 19 :=
  (jumpTarget_toNat imm).trans_le imm.isLt.le

/-- An instruction of a running engine, executed below the capacity, keeps the invariant. -/
theorem inv_exec {i : Instr} {s t : State} (h : s.Inv) (hs : s.status = .running)
    (hpc : s.pc.toNat < s.params.imemWords) (ht : exec i s = .next t) : t.Inv := by
  obtain ⟨d, v, rfl⟩ | ⟨a, v, ha, rfl⟩ | ⟨f, rfl⟩ | ⟨imm, rfl⟩ | rfl | rfl | ⟨e, rfl⟩ := exec_next_cases ht
  · exact inv_nextPc (inv_setReg h d v) hpc
  · exact inv_nextPc (inv_setCell h ha v) hpc
  · exact inv_nextPc (inv_setFlag h f) hpc
  · exact inv_setPc h (jumpTarget_le imm)
  · exact inv_nextPc h hpc
  · exact inv_halt (inv_nextPc h hpc) hs
  · exact inv_raise h e

/-- Settles O38: a step is an instruction executed below the capacity, or a fault of fetch or decode. -/
theorem stepKeepsInvariant : Obligations.StepKeepsInvariant := by
  unfold Obligations.StepKeepsInvariant
  intro s t h hst
  obtain ⟨hs, ⟨i, hi, ht⟩ | ⟨e, -, rfl⟩⟩ := step_next hst
  · exact inv_exec h hs (fetchInstr_eq_ok.mp hi).1 ht
  · exact inv_raise h e

/-! ## What a run keeps -/

/-- What holds of a state and is kept by every step holds of every state that the run passes through. -/
theorem reaches_induction {P : State → Prop} (step_keeps : ∀ s t, P s → step s = .next t → P t) {s t : State}
    (hs : P s) (h : Reaches s t) : P t := by
  obtain ⟨k, hk⟩ := h
  induction k generalizing s with
  | zero => cases hk; exact hs
  | succ k ih =>
    rw [run_succ] at hk
    cases hst : step s with
    | next u => rw [hst] at hk; exact ih (step_keeps s u hs hst) hk
    | fault r => rw [hst] at hk; cases hk
    | refused r => rw [hst] at hk; cases hk

/-- No instruction writes instruction memory or the parameters (20_memory.md R62, 10_state.md R34). -/
theorem sameBuild_exec {i : Instr} {s t : State} (h : exec i s = .next t) : SameBuild s t := by
  obtain ⟨_, _, rfl⟩ | ⟨_, _, _, rfl⟩ | ⟨_, rfl⟩ | ⟨_, rfl⟩ | rfl | rfl | ⟨_, rfl⟩ := exec_next_cases h
  all_goals exact ⟨rfl, rfl⟩

theorem sameBuild_step {s t : State} (h : step s = .next t) : SameBuild s t := by
  obtain ⟨-, ⟨i, -, ht⟩ | ⟨e, -, rfl⟩⟩ := step_next h
  · exact sameBuild_exec ht
  · exact ⟨rfl, rfl⟩

theorem sameBuild_trans {s t u : State} (h : SameBuild s t) (h' : SameBuild t u) : SameBuild s u :=
  ⟨h'.1.trans h.1, h'.2.trans h.2⟩

theorem sameBuild_reaches {s t : State} (h : Reaches s t) : SameBuild s t :=
  reaches_induction (P := SameBuild s) (fun _ _ hu hst => sameBuild_trans hu (sameBuild_step hst)) ⟨rfl, rfl⟩ h

/-- Settles O35: `sameBuild_step`, carried along the run; a word is read from instruction memory alone. -/
theorem instructionMemoryIsFixedDuringRun : Obligations.InstructionMemoryIsFixedDuringRun := by
  unfold Obligations.InstructionMemoryIsFixedDuringRun
  intro s t h
  have hb := sameBuild_reaches h
  exact ⟨hb, fun a => congrArg (Memory.read · a) hb.2⟩

end Sys2Proof.Machine
end

section
/-! Which words decode, and to what (30_encoding.md R72, R76 to R79; 10_state.md R36). The opcode alone decides
whether a word decodes and to an instruction of which row; of the other fields, decoding sees the used ones only. -/

namespace Sys2Proof

/-- Settles O1: the decoder computes each of the eleven words. -/
theorem opcodeMapWordsDecode : Obligations.OpcodeMapWordsDecode := by
  unfold Obligations.OpcodeMapWordsDecode
  decide

/-- Settles O3: cover and disjointness are the two inverse laws of extraction and `Encode`. -/
theorem fieldsAreDisjointAndCoverTheWord : Obligations.FieldsAreDisjointAndCoverTheWord := by
  unfold Obligations.FieldsAreDisjointAndCoverTheWord
  refine ⟨Fields.encode_ofWord, fun f g h => ?_, by decide⟩
  rw [← Fields.ofWord_encode f, h, Fields.ofWord_encode]

/-! ## Defined and undefined opcodes -/

/-- R76: the opcodes 0 to 8 name an instruction. -/
theorem Fields.toInstr_defined {f : Fields} (h : f.opcode.toNat ≤ 8) : ∃ i, f.toInstr = .ok i := by
  obtain ⟨op, dst, src1, src2, imm⟩ := f
  obtain hop | rfl | rfl | rfl | rfl | rfl | rfl | rfl | rfl | rfl := opcode_cases op
  · exact absurd hop (Nat.not_le.mpr (Nat.lt_succ_of_le h))
  all_goals exact ⟨_, rfl⟩

/-- R77: a word is rejected exactly for its opcode. -/
theorem decode_eq_error {w : InstrWord} {e : DecodeError} :
    decode w = .error e ↔ 9 ≤ (Fields.ofWord w).opcode.toNat ∧ e = .undefinedOpcode (Fields.ofWord w).opcode := by
  by_cases h : 9 ≤ (Fields.ofWord w).opcode.toNat
  · simp only [decode, Fields.toInstr_undefined h, Except.error.injEq, h, true_and, eq_comm]
  · obtain ⟨i, hi⟩ := Fields.toInstr_defined (Nat.le_of_lt_succ (Nat.lt_of_not_le h))
    simp only [decode, hi, h, false_and, reduceCtorEq]

theorem decode_exists_error {w : InstrWord} : (∃ e, decode w = .error e) ↔ 9 ≤ (Fields.ofWord w).opcode.toNat := by
  simp only [decode_eq_error, exists_and_left, exists_eq, and_true]

theorem decode_exists_ok {w : InstrWord} : (∃ i, decode w = .ok i) ↔ (Fields.ofWord w).opcode.toNat ≤ 8 := by
  constructor
  · rintro ⟨i, hi⟩
    exact of_decide_eq_true (Fields.toInstr_ok hi).1
  · exact Fields.toInstr_defined

/-- The instruction that a word decodes to has the word's opcode. -/
theorem opcode_of_decode {w : InstrWord} {i : Instr} (h : decode w = .ok i) :
    i.fields.opcode = (Fields.ofWord w).opcode := by
  rw [(Fields.toInstr_ok h).2]
  rfl

/-! ## Mask and match (R76) -/

/-- ANDing with the mask clears the low 28 bits. -/
theorem and_opcodeMask (w : InstrWord) : w &&& opcodeMask = w >>> 28 <<< 28 := by
  have hmask : ∀ j : Fin 32, opcodeMask.getLsbD j.val = decide (28 ≤ j.val) := by decide
  apply BitVec.eq_of_getLsbD_eq
  intro j hj
  rw [BitVec.getLsbD_and, hmask ⟨j, hj⟩, BitVec.getLsbD_shiftLeft, BitVec.getLsbD_ushiftRight]
  by_cases h : 28 ≤ j
  · have hj' : 28 + (j - 28) = j := by omega
    simp [h, hj, hj', Nat.not_lt.mpr h]
  · simp [h, hj, Nat.lt_of_not_le h]

/-- The masked word is the opcode in its place. -/
theorem and_opcodeMask_toNat (w : InstrWord) :
    (w &&& opcodeMask).toNat = (Fields.ofWord w).opcode.toNat * 2 ^ 28 := by
  have hw := w.isLt
  rw [and_opcodeMask, Fields.ofWord_opcode_toNat, BitVec.toNat_shiftLeft, BitVec.toNat_ushiftRight,
    Nat.shiftLeft_eq, Nat.shiftRight_eq_div_pow]
  omega

/-- A row's match value is its opcode in its place. -/
theorem matchWord_toNat (i : Instr) : i.matchWord.toNat = i.fields.opcode.toNat * 2 ^ 28 := by
  have hop := i.fields.opcode.isLt
  rw [(shape_statement i).2.2, BitVec.toNat_ofNat]
  omega

/-- A masked word is a row's match value exactly when it has the row's opcode. -/
theorem and_opcodeMask_eq_matchWord {w : InstrWord} {i : Instr} :
    w &&& opcodeMask = i.matchWord ↔ (Fields.ofWord w).opcode = i.fields.opcode := by
  rw [BitVec.toNat_eq, and_opcodeMask_toNat, matchWord_toNat, BitVec.toNat_eq]
  omega

theorem matchWord_eq_iff {i j : Instr} : j.matchWord = i.matchWord ↔ j.fields.opcode = i.fields.opcode := by
  rw [BitVec.toNat_eq, matchWord_toNat, matchWord_toNat, BitVec.toNat_eq]
  omega

/-- An instruction's opcode is a defined one. -/
theorem Instr.opcode_le (i : Instr) : i.fields.opcode.toNat ≤ 8 :=
  of_decide_eq_true (((Fields.canonical_iff _).mp i.fields_canonical).1)

/-- Settles O5: mask, match and decoder all look at the opcode alone. -/
theorem maskAndMatchSelectTheInstruction : Obligations.MaskAndMatchSelectTheInstruction := by
  unfold Obligations.MaskAndMatchSelectTheInstruction
  refine ⟨fun i w => ?_, fun w => ?_⟩
  · rw [and_opcodeMask_eq_matchWord]
    constructor
    · intro hop
      obtain ⟨j, hj⟩ := decode_exists_ok.mpr (hop ▸ i.opcode_le)
      exact ⟨j, hj, matchWord_eq_iff.mpr ((opcode_of_decode hj).trans hop)⟩
    · rintro ⟨j, hj, hmatch⟩
      exact (opcode_of_decode hj).symm.trans (matchWord_eq_iff.mp hmatch)
  · rw [decode_exists_error, Fields.ofWord_opcode_toNat]
    omega

/-! ## Unused fields (R79) -/

/-- Decoding does not see what clearing the unused fields removes. -/
theorem Fields.toInstr_clearUnused (f : Fields) : f.clearUnused.toInstr = f.toInstr := by
  obtain ⟨op, dst, src1, src2, imm⟩ := f
  obtain hop | rfl | rfl | rfl | rfl | rfl | rfl | rfl | rfl | rfl := opcode_cases op
  · exact (Fields.toInstr_undefined (f := Fields.clearUnused ⟨op, dst, src1, src2, imm⟩) hop).trans
      (Fields.toInstr_undefined (f := ⟨op, dst, src1, src2, imm⟩) hop).symm
  all_goals rfl

theorem keepIf_congr {n : Nat} {use : Bool} {x y : BitVec n} (h : use = true → x = y) :
    keepIf use x = keepIf use y := by
  cases use with
  | false => rfl
  | true => exact h rfl

/-- Settles O6: agreeing in the used fields is being the same after the unused ones are cleared. -/
theorem unusedFieldsDoNotAffectDecoding : Obligations.UnusedFieldsDoNotAffectDecoding := by
  unfold Obligations.UnusedFieldsDoNotAffectDecoding
  intro w v hop hdst hsrc1 hsrc2 himm
  have hclear : (Fields.ofWord w).clearUnused = (Fields.ofWord v).clearUnused := by
    simp only [Fields.clearUnused, ← hop, keepIf_congr hdst, keepIf_congr hsrc1, keepIf_congr hsrc2, keepIf_congr himm]
  rw [decode, ← Fields.toInstr_clearUnused, hclear, Fields.toInstr_clearUnused, decode]

/-! ## The decoder block (10_state.md R36) -/

/-- An unused field is valid, and so is the 0 in its place. -/
theorem valid_keepIf (use : Bool) (r : RegSel) : (!use || RegSel.valid (keepIf use r)) = (!use || r.valid) := by
  cases use <;> rfl

theorem Fields.regValid_clearUnused (f : Fields) : f.clearUnused.regValid = f.regValid := by
  simp only [Fields.regValid, Fields.clearUnused, valid_keepIf]

/-- The block's `reg_valid` of a word that decodes says whether the instruction is well-formed. -/
theorem regValid_of_decode {w : InstrWord} {i : Instr} (h : decode w = .ok i) : (Fields.ofWord w).regValid = i.wf := by
  rw [← Fields.regValid_clearUnused, ← (Fields.toInstr_ok h).2, (shape_statement i).2.1]

/-- The block's `illegal` output, of a word that decodes. -/
theorem decoderBlock_illegal {w : InstrWord} {i : Instr} (h : decode w = .ok i) :
    (decoderBlock w).illegal = !i.wf := by
  simp [decoderBlock, (Fields.toInstr_ok h).1, regValid_of_decode h]

/-- Settles O7: `op_valid` is that the word decodes, and `reg_valid` then that its instruction is well-formed. -/
theorem decoderBlockFlagsExactlyIllegalWords : Obligations.DecoderBlockFlagsExactlyIllegalWords := by
  unfold Obligations.DecoderBlockFlagsExactlyIllegalWords
  intro w
  cases hw : decode w with
  | error e =>
    have hop : (Fields.ofWord w).opValid = false :=
      decide_eq_false (Nat.not_le.mpr (decode_eq_error.mp hw).1)
    simp [decoderBlock, hop]
  | ok i =>
    simp [decoderBlock_illegal hw]

end Sys2Proof
end

section
/-! The step, its end states and its faults (10_state.md R25, R29, R31; 60_exceptions.md R161 to R167). Everything
rests on `exec_outcome`, the three outcomes of an instruction, and on `step_next`, the two ways a step goes. -/

namespace Sys2Proof.Machine

/-! ## Every running engine steps -/

/-- Settles O14: each of the three outcomes is a next state. -/
theorem everyInstructionAnswersNextState : Obligations.EveryInstructionAnswersNextState := by
  unfold Obligations.EveryInstructionAnswersNextState
  intro i s
  obtain ⟨-, h⟩ | ⟨-, _, -, -, h⟩ | ⟨-, -, t, h, -⟩ := exec_outcome i s
  · exact ⟨_, h⟩
  · exact ⟨_, h⟩
  · exact ⟨t, h⟩

theorem exists_step {s : State} (hs : s.status = .running) : ∃ t, step s = .next t := by
  cases hf : fetchInstr s with
  | ok i => rw [step_of_fetchInstr_ok hs hf]; exact everyInstructionAnswersNextState i s
  | error e => exact ⟨_, step_of_fetchInstr_error hs hf⟩

theorem step_halted {s : State} (hs : s.status = .halted) : step s = .fault .engineHalted := by
  simp only [step, hs]

theorem step_faulted {s : State} (hs : s.status = .faulted) : step s = .fault .engineFaulted := by
  simp only [step, hs]

/-- Settles O13: `step_next` in one direction, `exists_step` in the other. -/
theorem engineStepsExactlyWhileRunning : Obligations.EngineStepsExactlyWhileRunning := by
  unfold Obligations.EngineStepsExactlyWhileRunning
  refine fun s => ⟨⟨fun ⟨_, h⟩ => (step_next h).1, exists_step⟩, step_halted, step_faulted, fun r h => ?_⟩
  cases hs : s.status with
  | running => obtain ⟨t, ht⟩ := exists_step hs; rw [ht] at h; cases h
  | halted => rw [step_halted hs] at h; cases h
  | faulted => rw [step_faulted hs] at h; cases h

/-- Settles O11: this is `step_of_decode`. -/
theorem stepRunsDecodedInstruction : Obligations.StepRunsDecodedInstruction := by
  unfold Obligations.StepRunsDecodedInstruction
  exact fun s i => step_of_decode

/-! ## The word placed at `pc` (log 7) -/

theorem withFetchWord_eq {s : State} (hpc : s.pc.toNat < s.params.imemWords) (w : Nat) :
    s.withFetchWord 32 w = { s with imem := s.imem.write s.pc.toNat (BitVec.ofNat 32 w) } := by
  have hw : BitVec.ofNat 32 (w % 2 ^ 32) = BitVec.ofNat 32 w := BitVec.eq_of_toNat_eq (by simp)
  rw [State.withFetchWord, if_pos hpc, hw]

/-- Settles O12: the placed state differs in instruction memory alone, whose reads `Memory.read_write` gives. -/
theorem placedWordIsFetchedAndRun : Obligations.PlacedWordIsFetchedAndRun := by
  unfold Obligations.PlacedWordIsFetchedAndRun
  intro s w i hwf hs hpc hi
  rw [withFetchWord_eq hpc]
  refine ⟨step_of_decode hs hpc ?_, fun a ha => Memory.read_write_other hwf.1 _ ha, fun _ => rfl, fun _ => rfl, rfl,
    rfl, ⟨rfl, rfl⟩, rfl⟩
  exact (congrArg decode (Memory.read_write_same hwf.1 _ _)).trans hi

/-! ## The faults, one by one -/

/-- Settles O26: this is `exec_of_not_wf`. -/
theorem badRegisterFieldFaults : Obligations.BadRegisterFieldFaults := by
  unfold Obligations.BadRegisterFieldFaults
  exact fun i s h => exec_of_not_wf h s

/-- Settles O27: an address that is negative, or at or beyond the capacity, is not inside data memory. -/
theorem dataAddressOutsideCapacityFaults : Obligations.DataAddressOutsideCapacityFaults := by
  unfold Obligations.DataAddressOutsideCapacityFaults
  refine ⟨fun s dst src1 d r hd hr hout => exec_load_outside hd hr ?_,
    fun s dst imm r hr hout => exec_store_outside hr ?_⟩
  · rintro ⟨h0, hlt⟩
    omega
  · rintro ⟨-, hlt⟩
    omega

theorem fetchInstr_beyond {s : State} (h : s.params.imemWords ≤ s.pc.toNat) :
    fetchInstr s = .error (.fetchFault s.pc.toNat) :=
  fetchInstr_eq_error.mpr (.inl ⟨h, rfl⟩)

theorem fetchInstr_undefined {s : State} (hpc : s.pc.toNat < s.params.imemWords)
    (hop : 9 ≤ (s.word s.pc.toNat).toNat / 2 ^ 28) :
    fetchInstr s = .error (.invalidOpcodeOp (Fields.ofWord (s.word s.pc.toNat)).opcode) := by
  rw [← Fields.ofWord_opcode_toNat] at hop
  exact fetchInstr_eq_error.mpr (.inr ⟨hpc, _, decode_eq_error.mpr ⟨hop, rfl⟩, rfl⟩)

/-- Settles O28: a fault of fetch or decode is the step. -/
theorem fetchAndOpcodeFaults : Obligations.FetchAndOpcodeFaults := by
  unfold Obligations.FetchAndOpcodeFaults
  exact fun s hs => ⟨fun h => step_of_fetchInstr_error hs (fetchInstr_beyond h),
    fun hpc hop => step_of_fetchInstr_error hs (fetchInstr_undefined hpc hop)⟩

/-! ## What the latches say after a step -/

/-- An instruction that completes in a running engine leaves it halted or running. -/
theorem Completes.status_ne_faulted {i : Instr} {s t : State} (h : Completes i s t) (hs : s.status = .running) :
    t.status ≠ .faulted := by
  rw [h.status]
  cases i <;> simp [statusAfter, hs]

theorem Completes.halted_iff {i : Instr} {s t : State} (h : Completes i s t) (hs : s.status = .running) :
    t.status = .halted ↔ i = .terminate := by
  rw [h.status]
  cases i <;> simp [statusAfter, hs]

/-- A step that leaves the engine faulted has taken a fault and done nothing else. -/
theorem raise_of_step_faulted {s t : State} (h : step s = .next t) (ht : t.status = .faulted) :
    ∃ e, t = s.raise e := by
  obtain ⟨i, -, -, hc⟩ | he := step_completes_or_raises h
  · exact absurd ht (hc.status_ne_faulted (step_next h).1)
  · exact he

/-- Settles O29: by `raise_of_step_faulted`, and `raise` writes the two latches alone. -/
theorem faultingStepChangesOnlyTheLatches : Obligations.FaultingStepChangesOnlyTheLatches := by
  unfold Obligations.FaultingStepChangesOnlyTheLatches
  intro s t h ht
  obtain ⟨e, rfl⟩ := raise_of_step_faulted h ht
  exact ⟨fun _ => rfl, fun _ => rfl, rfl, rfl, ⟨rfl, rfl⟩, causeOf_ne_none e⟩

/-- Settles O36: a step ends in a fault, or completes the fetched instruction. -/
theorem stepHaltsExactlyOnTerminate : Obligations.StepHaltsExactlyOnTerminate := by
  unfold Obligations.StepHaltsExactlyOnTerminate
  intro s t h
  obtain ⟨i, hi, -, hc⟩ | ⟨e, rfl⟩ := step_completes_or_raises h
  · obtain ⟨hpc, hdec⟩ := fetchInstr_eq_ok.mp hi
    have hs := (step_next h).1
    refine ⟨?_, fun hf => absurd hf (hc.status_ne_faulted hs), fun _ => hc.faultCause⟩
    rw [hc.halted_iff hs, hdec, Except.ok.injEq]
    exact (and_iff_right hpc).symm
  · refine ⟨⟨nofun, fun ⟨hpc, hdec⟩ => ?_⟩, fun _ => causeOf_ne_none e, fun hf => absurd rfl hf⟩
    rw [step_of_decode (step_next h).1 hpc hdec, exec_terminate, Host.Outcome.next.injEq] at h
    exact congrArg State.status h.symm

/-- Settles O37: the `pc` of a completed instruction is `pcAfter`, whose successor does not wrap under the invariant. -/
theorem pcAdvancesByOneOrToJumpTarget : Obligations.PcAdvancesByOneOrToJumpTarget := by
  unfold Obligations.PcAdvancesByOneOrToJumpTarget
  intro s t i hinv hdec h
  obtain ⟨j, hj, -, hc⟩ | ⟨e, rfl⟩ := step_completes_or_raises h
  · obtain ⟨hpc, hdec'⟩ := fetchInstr_eq_ok.mp hj
    obtain rfl : i = j := Except.ok.inj (hdec.symm.trans hdec')
    have hsucc := pc_succ_toNat hinv hpc
    refine ⟨fun hf => absurd hf (hc.status_ne_faulted (step_next h).1), fun _ => ⟨?_, ?_, ?_, ?_⟩⟩ <;> rw [hc.pc]
    · rintro imm rfl
      exact jumpTarget_toNat imm
    · rintro imm rfl hf
      rw [pcAfter, if_pos hf, jumpTarget_toNat]
    · rintro imm rfl hf
      rw [pcAfter, if_neg hf, hsucc]
    · intro hjump hjumpIf
      cases i with
      | jump imm => exact absurd rfl (hjump imm)
      | jumpIf imm => exact absurd rfl (hjumpIf imm)
      | _ => exact hsucc
  · exact ⟨fun _ => rfl, nofun⟩

/-! ## Which fault is reported (R167) -/

theorem firstFault_of_error {s : State} {e : StepFault} (h : fetchInstr s = .error e) : firstFault s = causeOf e := by
  obtain ⟨hpc, rfl⟩ | ⟨hpc, op, hdec, rfl⟩ := fetchInstr_eq_error.mp h
  · rw [firstFault, if_pos hpc]
    rfl
  · rw [firstFault, if_neg (Nat.not_le.mpr hpc), hdec]
    rfl

section Fetched

variable {s : State} {i : Instr} (h : fetchInstr s = .ok i)
include h

theorem firstFault_of_not_wf (hwf : i.wf = false) : firstFault s = .invalidOpcodeReg := by
  obtain ⟨hpc, hdec⟩ := fetchInstr_eq_ok.mp h
  simp only [firstFault, if_neg (Nat.not_le.mpr hpc), hdec, if_pos hwf]

theorem firstFault_of_outside (hwf : i.wf = true) {k : Int} (hi : dataAddressOf i s = some k) (hk : ¬ InData s k) :
    firstFault s = .dataAddressFault := by
  obtain ⟨hpc, hdec⟩ := fetchInstr_eq_ok.mp h
  simp only [firstFault, if_neg (Nat.not_le.mpr hpc), hdec, hwf, Bool.true_eq_false, if_false, hi, if_neg hk]

theorem firstFault_of_inside (hwf : i.wf = true) (hk : ∀ k, dataAddressOf i s = some k → InData s k) :
    firstFault s = .none := by
  obtain ⟨hpc, hdec⟩ := fetchInstr_eq_ok.mp h
  simp only [firstFault, if_neg (Nat.not_le.mpr hpc), hdec, hwf, Bool.true_eq_false, if_false]
  cases hi : dataAddressOf i s with
  | none => rfl
  | some k => exact if_pos (hk k hi)

end Fetched

/-- A step that takes the fault `e` reports its cause. -/
theorem reports_raise {s : State} {e : StepFault} (h : firstFault s = causeOf e) :
    (firstFault s ≠ .none → (s.raise e).status = .faulted ∧ (s.raise e).faultCause = firstFault s) ∧
    (firstFault s = .none → (s.raise e).status ≠ .faulted ∧ (s.raise e).faultCause = s.faultCause) :=
  ⟨fun _ => ⟨rfl, h.symm⟩, fun hn => absurd (h.symm.trans hn) (causeOf_ne_none e)⟩

/-- Settles O30: the four fault conditions in their order are the error of `fetchInstr` and the outcomes of
`exec_outcome`. -/
theorem firstFaultConditionIsReported : Obligations.FirstFaultConditionIsReported := by
  unfold Obligations.FirstFaultConditionIsReported
  intro s hs
  cases hf : fetchInstr s with
  | error e => exact ⟨_, step_of_fetchInstr_error hs hf, reports_raise (firstFault_of_error hf)⟩
  | ok i =>
    rw [step_of_fetchInstr_ok hs hf]
    obtain ⟨hwf, h⟩ | ⟨hwf, k, hi, hk, h⟩ | ⟨hwf, hk, t, h, hc⟩ := exec_outcome i s
    · exact ⟨_, h, reports_raise (firstFault_of_not_wf hf hwf)⟩
    · exact ⟨_, h, reports_raise (firstFault_of_outside hf hwf hi hk)⟩
    · have hnone := firstFault_of_inside hf hwf hk
      exact ⟨t, h, fun hne => absurd hnone hne, fun _ => ⟨hc.status_ne_faulted hs, hc.faultCause⟩⟩

/-! ## The offending value (R161, last column) -/

theorem offending_of_fetchInstr_error {s : State} {e : StepFault} (h : fetchInstr s = .error e) :
    (s.raise e).offending = some e := by
  obtain ⟨-, rfl⟩ | ⟨-, op, hdec, rfl⟩ := fetchInstr_eq_error.mp h
  · rfl
  · obtain ⟨-, hop⟩ := decode_eq_error.mp hdec
    cases hop
    rfl

/-- The data address that a well-formed instruction forms can be formed again after its fault. -/
theorem offending_of_dataAddress {s : State} {i : Instr} {k : Int} (hdec : decode (s.word s.pc.toNat) = .ok i)
    (hwf : i.wf = true) (hi : dataAddressOf i s = some k) :
    (s.raise (.dataAddressFault k)).offending = some (.dataAddressFault k) := by
  have hcause : (s.raise (.dataAddressFault k)).faultCause = .dataAddressFault := rfl
  simp only [State.offending, hcause, State.raise_pc, State.raise_word, hdec]
  cases i with
  | load dst src1 =>
    obtain ⟨a, ha⟩ := exists_regIdx_of_wf hwf (r := src1) (by simp [Instr.regFields])
    rw [dataAddressOf_load ha, Option.some.injEq] at hi
    simp only [regIndex_eq_ok.mpr ha, ← hi]
    rfl
  | store dst imm => cases hi; rfl
  | _ => cases hi

/-- Settles O31: the faulting step is the fault of `fetchInstr` or a faulting outcome of the fetched instruction, and
the state after it is that before it but for the latches. -/
theorem offendingValueIsRecoverable : Obligations.OffendingValueIsRecoverable := by
  unfold Obligations.OffendingValueIsRecoverable
  intro s t h ht
  have hs := (step_next h).1
  have herror : ∀ e, fetchInstr s = .error e → t = s.raise e ∧ t.offending = some e := by
    intro e he
    rw [step_of_fetchInstr_error hs he, Host.Outcome.next.injEq] at h
    subst h
    exact ⟨rfl, offending_of_fetchInstr_error he⟩
  refine ⟨fun hpc => (herror _ (fetchInstr_beyond hpc)).2, fun hpc hop => ⟨_, Fields.ofWord_opcode_toNat _,
    (herror _ (fetchInstr_undefined hpc hop)).2⟩, herror, fun i hi hwf => ?_, fun i hi hwf => ?_⟩
  · rw [step_of_fetchInstr_ok hs hi, exec_of_not_wf hwf, Host.Outcome.next.injEq] at h
    subst h
    exact ⟨rfl, rfl⟩
  · rw [step_of_fetchInstr_ok hs hi] at h
    obtain ⟨hnwf, -⟩ | ⟨-, k, hk, hout, h'⟩ | ⟨-, -, t', h', hc⟩ := exec_outcome i s
    · rw [hwf] at hnwf
      cases hnwf
    · rw [h', Host.Outcome.next.injEq] at h
      subst h
      exact ⟨k, hk, hout, rfl, offending_of_dataAddress (fetchInstr_eq_ok.mp hi).2 hwf hk⟩
    · rw [h', Host.Outcome.next.injEq] at h
      subst h
      exact absurd ht (hc.status_ne_faulted hs)

end Sys2Proof.Machine
end

section
/-! The arithmetic of XLEN-bit patterns (00_scope.md R7, 41_alu.md R120 to R126): signed readings, wrap-around and the
comparison. -/

namespace Sys2Proof.Machine

variable {n : Nat}

/-! ## Signed readings -/

/-- A pattern is determined by its signed reading. -/
theorem sint_inj {a b : BitVec n} : sint a = sint b ↔ a = b := by
  rw [sint_eq_toInt, sint_eq_toInt, BitVec.toInt_inj]

/-- Below the sign bit both readings agree. -/
theorem sint_of_lt {v : BitVec n} (h : uint v < 2 ^ (n - 1)) : sint v = uint v := if_pos h

theorem sint_lt (v : BitVec n) : sint v < 2 ^ (n - 1) := sint_eq_toInt v ▸ BitVec.toInt_lt

theorem le_sint (v : BitVec n) : -2 ^ (n - 1) ≤ sint v := sint_eq_toInt v ▸ BitVec.le_toInt v

/-! ## Wrap-around (R123) -/

section Wrap

variable (hn : 0 < n) {z : Int}
include hn

theorem two_pow_eq_double : (2 : Int) ^ n = 2 * 2 ^ (n - 1) := (mul_pow_sub_one hn.ne' 2).symm

theorem sint_trunc_of_fits (h : -2 ^ (n - 1) ≤ z) (h' : z < 2 ^ (n - 1)) : sint (trunc n z) = z := by
  rw [trunc_eq_ofInt, sint_eq_toInt, BitVec.toInt_ofInt_eq_self hn h h']

/-- A result too large by less than 2^(n-1) comes back 2^n lower. -/
theorem sint_trunc_of_high (h : 2 ^ (n - 1) ≤ z) (h' : z < 2 ^ n) : sint (trunc n z) = z - 2 ^ n := by
  have hshift : trunc n (z - 2 ^ n) = trunc n z := by rw [trunc, trunc, Int.sub_emod_right]
  have hdouble := two_pow_eq_double hn
  rw [← hshift, sint_trunc_of_fits hn] <;> omega

/-- A result too small by at most 2^(n-1) comes back 2^n higher. -/
theorem sint_trunc_of_low (h : z < -2 ^ (n - 1)) (h' : -2 ^ n ≤ z) : sint (trunc n z) = z + 2 ^ n := by
  have hshift : trunc n (z + 2 ^ n) = trunc n z := by rw [trunc, trunc, Int.add_emod_right]
  have hdouble := two_pow_eq_double hn
  rw [← hshift, sint_trunc_of_fits hn] <;> omega

end Wrap

/-! ## The unit's results (R126) -/

theorem uint_aluAdd (a b : BitVec n) : uint (aluAdd a b) = (uint a + uint b) % 2 ^ n := by
  rw [aluAdd_eq, uint, BitVec.toNat_add]
  rfl

theorem uint_aluInc (a : BitVec n) : uint (aluInc a) = (uint a + 1) % 2 ^ n := by
  rw [aluInc_eq, uint, BitVec.toNat_add, uint]
  simp

theorem compareSigned_eq_greater {a b : BitVec n} : compareSigned a b = .greater ↔ sint b < sint a := by
  unfold compareSigned
  split_ifs <;> simp <;> omega

theorem compareSigned_eq_less {a b : BitVec n} : compareSigned a b = .less ↔ sint a < sint b := by
  unfold compareSigned
  split_ifs <;> simp <;> omega

theorem compareSigned_eq_equal {a b : BitVec n} : compareSigned a b = .equal ↔ a = b := by
  rw [← sint_inj]
  unfold compareSigned
  split_ifs <;> simp <;> omega

/-- Settles O25: addition and increment are those of bit vectors, the comparison that of the signed readings. -/
theorem arithmeticUnitLaws : Obligations.ArithmeticUnitLaws := by
  unfold Obligations.ArithmeticUnitLaws
  refine fun n a b c => ⟨⟨_, rfl, uint_aluAdd a b⟩, ⟨_, rfl, uint_aluInc a⟩, rfl, ?_, ?_, ?_, ?_, fun op => ?_⟩
  · rw [aluAdd_eq, aluAdd_eq, BitVec.add_comm]
  · simp only [aluAdd_eq, BitVec.add_assoc]
  · exact (aluAdd_eq a 0).trans (BitVec.add_zero a)
  · rw [aluInc_eq, aluAdd_eq]
  · exact ⟨compareSigned_eq_equal, compareSigned_eq_greater, compareSigned_eq_less,
      compareSigned_eq_greater.trans compareSigned_eq_less.symm⟩

end Sys2Proof.Machine
end

section
/-! The instructions one by one (40_memory_move.md, 41_alu.md, 42_control.md): each claim is the instruction's completed
state, from the section on the meanings, and the frame of the updates that make it. -/

namespace Sys2Proof.Machine

/-! ## Frames -/

/-- From `s` to `t` the engine went on to the next instruction, and nothing but `pc` and register `d` can differ. -/
abbrev AdvancesButReg (d : RegIdx) (s t : State) : Prop :=
  t.pc = s.pc + 1 ∧ SameRegsBut d s t ∧ SameData s t ∧ t.flag = s.flag ∧ SameLatches s t ∧ SameBuild s t

theorem advancesButReg_setReg (s : State) (d : RegIdx) (v : BitVec s.xlen) :
    AdvancesButReg d s (s.setReg d v).nextPc :=
  ⟨rfl, fun _ hr => State.setReg_regNat_other s d v hr, fun _ => rfl, rfl, ⟨rfl, rfl⟩, ⟨rfl, rfl⟩⟩

/-- Settles O15: `exec_load_of_regs` and the frame of one register write. -/
theorem loadReadsCellAtRegister : Obligations.LoadReadsCellAtRegister := by
  unfold Obligations.LoadReadsCellAtRegister
  intro s dst src1 d r a hd hr ha hlt
  exact ⟨_, exec_load_of_regs hd hr ha hlt, State.setReg_regNat_same s d _, advancesButReg_setReg s d _⟩

/-- Settles O16: `exec_store_of_reg`; in a canonical memory the write is seen at its address alone. -/
theorem storeWritesCellAtImmediate : Obligations.StoreWritesCellAtImmediate := by
  unfold Obligations.StoreWritesCellAtImmediate
  intro s dst imm r a hwf hr ha hlt
  obtain rfl : imm.toNat = a := Int.ofNat_inj.mp ha
  exact ⟨_, exec_store_of_reg hr hlt, State.setCell_cellNat_same s hwf _ _, rfl,
    fun b hb => State.setCell_cellNat_other s hwf _ hb, fun _ => rfl, rfl, ⟨rfl, rfl⟩, ⟨rfl, rfl⟩⟩

/-- Settles O17: with XLEN at least 20, the 19-bit literal fits below the sign bit. -/
theorem moveWritesZeroExtendedLiteral : Obligations.MoveWritesZeroExtendedLiteral := by
  unfold Obligations.MoveWritesZeroExtendedLiteral
  intro s dst imm d hadm hd
  obtain ⟨hxlen, -⟩ := hadm
  have hxlen : 20 ≤ s.xlen := hxlen
  have hnat : uint (zext s.xlen imm) = imm.toNat := uint_zext imm (by omega)
  have hsmall : imm.toNat < 2 ^ (s.xlen - 1) :=
    imm.isLt.trans_le (Nat.pow_le_pow_right (by decide) (by omega))
  have hint : sint (zext s.xlen imm) = imm.toNat := by rw [sint_of_lt (hnat ▸ hsmall), hnat]
  exact ⟨_, exec_move_of_reg hd, (State.setReg_regNat_same s d _).trans hnat,
    (State.setReg_regInt_same s d _).trans hint, advancesButReg_setReg s d _⟩

/-- Settles O18: `exec_add_of_regs`, and the unit adds patterns modulo 2^XLEN. -/
theorem addWritesWrappedSum : Obligations.AddWritesWrappedSum := by
  unfold Obligations.AddWritesWrappedSum
  intro s dst src1 src2 d a b hd ha hb
  exact ⟨_, exec_add_of_regs hd ha hb, (State.setReg_regNat_same s d _).trans (uint_aluAdd _ _),
    advancesButReg_setReg s d _⟩

/-- Settles O19: `exec_inc_of_reg`, and the unit increments patterns modulo 2^XLEN. -/
theorem incWritesWrappedSuccessor : Obligations.IncWritesWrappedSuccessor := by
  unfold Obligations.IncWritesWrappedSuccessor
  intro s dst d hd
  exact ⟨_, exec_inc_of_reg hd, (State.setReg_regNat_same s d _).trans (uint_aluInc _), advancesButReg_setReg s d _⟩

/-- Settles O20: `exec_cmp_of_regs`, and the comparison is that of the signed readings. -/
theorem cmpSetsFlagBySignedComparison : Obligations.CmpSetsFlagBySignedComparison := by
  unfold Obligations.CmpSetsFlagBySignedComparison
  intro s dst src1 a b ha hb
  exact ⟨_, exec_cmp_of_regs ha hb, compareSigned_eq_greater, compareSigned_eq_equal.trans sint_inj.symm,
    compareSigned_eq_less, rfl, fun _ => rfl, fun _ => rfl, ⟨rfl, rfl⟩, ⟨rfl, rfl⟩⟩

/-- Settles O21: a JUMP_IF writes `pc` alone, whichever way it goes. -/
theorem jumpIfGoesToImmediateWhenEqual : Obligations.JumpIfGoesToImmediateWhenEqual := by
  unfold Obligations.JumpIfGoesToImmediateWhenEqual
  intro s imm
  by_cases hf : s.flag = .equal
  · exact ⟨_, exec_jumpIf_taken hf imm, fun _ => jumpTarget_toNat imm, fun hne => absurd hf hne, fun _ => rfl,
      fun _ => rfl, rfl, ⟨rfl, rfl⟩, ⟨rfl, rfl⟩⟩
  · exact ⟨_, exec_jumpIf_untaken hf imm, fun he => absurd he hf, fun _ => rfl, fun _ => rfl, fun _ => rfl, rfl,
      ⟨rfl, rfl⟩, ⟨rfl, rfl⟩⟩

/-- Settles O23: a TERMINATE writes `pc` and the status alone. -/
theorem terminateHaltsAndKeepsTheRest : Obligations.TerminateHaltsAndKeepsTheRest := by
  unfold Obligations.TerminateHaltsAndKeepsTheRest
  exact fun s => ⟨_, exec_terminate s, rfl, fun _ => rfl, fun _ => rfl, rfl, rfl, ⟨rfl, rfl⟩⟩

/-- Settles O24: the unit truncates the exact sum of two values in the signed range, which is out of it by at most
2^(XLEN-1) on either side. -/
theorem overflowDiffersFromExactSumByTwoToXlen : Obligations.OverflowDiffersFromExactSumByTwoToXlen := by
  unfold Obligations.OverflowDiffersFromExactSumByTwoToXlen
  intro s dst src1 src2 d a b hadm hd ha hb
  have hn : 0 < s.xlen := Nat.lt_of_lt_of_le (by decide) hadm.1
  have hdouble := two_pow_eq_double hn
  have bounds : ∀ r, -2 ^ (s.xlen - 1) ≤ s.regInt r ∧ s.regInt r < 2 ^ (s.xlen - 1) :=
    fun r => ⟨le_sint (s.reg r), sint_lt (s.reg r)⟩
  obtain ⟨ha0, ha1⟩ := bounds a
  obtain ⟨hb0, hb1⟩ := bounds b
  obtain ⟨hd0, hd1⟩ := bounds d
  have hsum : -2 ^ s.xlen ≤ s.regInt a + s.regInt b ∧ s.regInt a + s.regInt b < 2 ^ s.xlen := by omega
  have hsucc : s.regInt d + 1 < 2 ^ s.xlen := by omega
  refine ⟨_, _, exec_add_of_regs hd ha hb, exec_inc_of_reg hd, ?_, fun h => ?_, fun h => ?_⟩
  · rintro z rfl
    refine ⟨fun h h' => ?_, fun h => ?_, fun h => ?_⟩ <;> refine (State.setReg_regInt_same s d _).trans ?_
    · exact sint_trunc_of_fits hn h h'
    · exact sint_trunc_of_high hn h hsum.2
    · exact sint_trunc_of_low hn h hsum.1
  · exact (State.setReg_regInt_same s d _).trans (sint_trunc_of_fits hn (hd0.trans (Int.le_add_one le_rfl)) h)
  · exact (State.setReg_regInt_same s d _).trans (sint_trunc_of_high hn h hsucc)

/-! ## Data memory (20_memory.md R54, R60) -/

/-- No instruction but STORE writes data memory. -/
theorem cellNat_of_ne_store {i : Instr} {s t : State} (hi : ∀ dst imm, i ≠ .store dst imm) (h : exec i s = .next t)
    (k : Nat) : t.cellNat k = s.cellNat k := by
  cases i with
  | load dst src1 => obtain ⟨_, _, _, _, _, _, _, rfl⟩ | ⟨e, rfl, _⟩ := execLoad_next h <;> rfl
  | store dst imm => exact absurd rfl (hi dst imm)
  | add dst src1 src2 => obtain ⟨_, _, _, _, _, _, rfl⟩ | ⟨_, rfl⟩ := execAdd_next h <;> rfl
  | jumpIf imm => cases h; split <;> rfl
  | jump imm => cases h; rfl
  | terminate => cases h; rfl
  | cmp dst src1 => obtain ⟨_, _, _, _, rfl⟩ | ⟨_, rfl⟩ := execCmp_next h <;> rfl
  | inc dst => obtain ⟨_, _, rfl⟩ | ⟨_, rfl⟩ := execInc_next h <;> rfl
  | move dst imm => obtain ⟨_, _, rfl⟩ | ⟨_, rfl⟩ := execMove_next h <;> rfl

/-- A STORE changes no cell but the one at its immediate. -/
theorem cellNat_of_store {dst : RegSel} {imm : Imm} {s t : State} (hwf : s.dmem.wf)
    (h : exec (.store dst imm) s = .next t) {k : Nat} (hk : k ≠ imm.toNat) : t.cellNat k = s.cellNat k := by
  obtain ⟨_, _, _, rfl⟩ | ⟨e, rfl, _⟩ := execStore_next h
  · exact State.setCell_cellNat_other s hwf _ hk
  · rfl

/-- Settles O34: `cellNat_of_store` where the instruction is a STORE, `cellNat_of_ne_store` where it is not. -/
theorem dataCellChangesOnlyByStoreToIt : Obligations.DataCellChangesOnlyByStoreToIt := by
  unfold Obligations.DataCellChangesOnlyByStoreToIt
  intro i s t k hwf h hother
  by_cases hstore : ∃ dst imm, i = .store dst imm
  · obtain ⟨dst, imm, rfl⟩ := hstore
    refine cellNat_of_store hwf h fun hk => hother dst imm rfl ?_
    rw [hk]
    rfl
  · exact cellNat_of_ne_store (fun dst imm hi => hstore ⟨dst, imm, hi⟩) h k

/-- Settles O40: the LOAD finds at its address the cell that the STORE wrote, whose completed state holds the registers
and the capacity of the state before. -/
theorem loadAfterStoreReturnsStoredValue : Obligations.LoadAfterStoreReturnsStoredValue := by
  unfold Obligations.LoadAfterStoreReturnsStoredValue
  intro s rs rd ra imm v d a hwf hv hd ha haddr hlt
  refine ⟨_, _, exec_store_of_reg hv hlt, exec_load_of_regs hd ha haddr hlt, ?_⟩
  exact (State.setReg_regNat_same _ d _).trans (State.setCell_cellNat_same s hwf _ _)

/-! ## Jumps -/

/-- Settles O41: the flag that CMP leaves is `equal` exactly for equal patterns. -/
theorem jumpIfAfterCmpTestsEquality : Obligations.JumpIfAfterCmpTestsEquality := by
  unfold Obligations.JumpIfAfterCmpTestsEquality
  intro s dst src1 imm a b ha hb
  have hflag : (s.setFlag (compareSigned (s.reg a) (s.reg b))).nextPc.flag = .equal ↔ s.regNat a = s.regNat b :=
    compareSigned_eq_equal.trans BitVec.toNat_eq
  by_cases heq : s.regNat a = s.regNat b
  · exact ⟨_, _, exec_cmp_of_regs ha hb, exec_jumpIf_taken (hflag.mpr heq) imm, fun _ => jumpTarget_toNat imm,
      fun hne => absurd heq hne⟩
  · exact ⟨_, _, exec_cmp_of_regs ha hb, exec_jumpIf_untaken (mt hflag.mp heq) imm, fun h => absurd h heq,
      fun _ => rfl⟩

/-- A running engine that executes a JUMP, or a JUMP_IF with the flag `equal`, writes the target to `pc` and nothing
else. -/
theorem step_jump {s : State} {imm : Imm} (hs : s.status = .running) (hpc : s.pc.toNat < s.params.imemWords)
    (hi : decode (s.word s.pc.toNat) = .ok (.jump imm) ∨
      s.flag = .equal ∧ decode (s.word s.pc.toNat) = .ok (.jumpIf imm)) :
    step s = .next (s.setPc (jumpTarget imm)) := by
  obtain hi | ⟨hf, hi⟩ := hi
  · exact (step_of_decode hs hpc hi).trans (exec_jump imm s)
  · exact (step_of_decode hs hpc hi).trans (exec_jumpIf_taken hf imm)

/-- Settles O39: after `step_jump` the engine is running with `pc` at the target, which `fetchInstr_beyond` refuses. -/
theorem jumpBeyondMemoryFaultsAtNextFetch : Obligations.JumpBeyondMemoryFaultsAtNextFetch := by
  unfold Obligations.JumpBeyondMemoryFaultsAtNextFetch
  intro s imm hs hpc hi hbeyond
  have htarget := jumpTarget_toNat imm
  refine ⟨_, step_jump hs hpc hi, hs, htarget, ?_⟩
  rw [← htarget] at hbeyond ⊢
  exact step_of_fetchInstr_error hs (fetchInstr_beyond hbeyond)

end Sys2Proof.Machine
end

section
/-! Runs (10_state.md R32, 70_reset_and_hazards.md R198). The executor's fuel does not matter once it is enough; a run
goes on for ever exactly when it meets running states only. -/

namespace Sys2Proof.Machine

/-! ## More fuel changes nothing -/

theorem step_not_running {s : State} (hs : s.status ≠ .running) : ∃ r, step s = .fault r := by
  cases h : s.status with
  | running => exact absurd h hs
  | halted => exact ⟨_, step_halted h⟩
  | faulted => exact ⟨_, step_faulted h⟩

theorem runFor_of_not_running {s : State} (hs : s.status ≠ .running) (fuel : Nat) : runFor fuel s = some (s, 0) := by
  cases fuel with
  | zero => rw [runFor_zero, if_neg hs]
  | succ fuel =>
    obtain ⟨r, hr⟩ := step_not_running hs
    rw [runFor_succ, hr]

theorem runFor_of_step {s t : State} (h : step s = .next t) (fuel : Nat) :
    runFor (fuel + 1) s = (runFor fuel t).map fun r => (r.1, r.2 + stepCount t) := by
  rw [runFor_succ, h]

/-- A run that has ended has an ended rest, or had ended before it began. -/
theorem runFor_eq_some {fuel : Nat} {s t : State} {n : Nat} (h : runFor fuel s = some (t, n)) :
    (s.status ≠ .running ∧ t = s ∧ n = 0) ∨
    ∃ fuel' u m, fuel = fuel' + 1 ∧ step s = .next u ∧ runFor fuel' u = some (t, m) ∧ n = m + stepCount u := by
  by_cases hs : s.status = .running
  · cases fuel with
    | zero => rw [runFor_zero, if_pos hs] at h; cases h
    | succ fuel =>
      obtain ⟨u, hu⟩ := exists_step hs
      rw [runFor_of_step hu, Option.map_eq_some_iff] at h
      obtain ⟨⟨t', m⟩, hr, heq⟩ := h
      cases heq
      exact .inr ⟨fuel, u, m, rfl, hu, hr, rfl⟩
  · rw [runFor_of_not_running hs] at h
    cases h
    exact .inl ⟨hs, rfl, rfl⟩

theorem runFor_mono {fuel fuel' : Nat} (hle : fuel ≤ fuel') {s t : State} {n : Nat}
    (h : runFor fuel s = some (t, n)) : runFor fuel' s = some (t, n) := by
  induction fuel generalizing fuel' s n with
  | zero =>
    obtain ⟨hs, rfl, rfl⟩ | ⟨_, _, _, hfuel, -⟩ := runFor_eq_some h
    · exact runFor_of_not_running hs fuel'
    · cases hfuel
  | succ fuel ih =>
    obtain ⟨hs, rfl, rfl⟩ | ⟨_, u, m, hfuel, hu, hr, rfl⟩ := runFor_eq_some h
    · exact runFor_of_not_running hs fuel'
    · cases hfuel
      obtain ⟨k, rfl⟩ := Nat.exists_eq_succ_of_ne_zero (Nat.ne_of_gt (Nat.zero_lt_of_lt hle))
      rw [Nat.succ_eq_add_one, runFor_of_step hu, ih (Nat.le_of_succ_le_succ hle) hr]
      rfl

/-- Settles O49: both ends are answered with the larger of the two amounts of fuel. -/
theorem runEndAndStepCountAreUnique : Obligations.RunEndAndStepCountAreUnique := by
  unfold Obligations.RunEndAndStepCountAreUnique
  rintro s t t' n n' ⟨k, hk⟩ ⟨k', hk'⟩
  have h := runFor_mono (Nat.le_max_left k k') hk
  have h' := runFor_mono (Nat.le_max_right k k') hk'
  rw [h, Option.some.injEq, Prod.mk.injEq] at h'
  exact h'

/-! ## How a run ends, and when it does not -/

theorem endsIn_stopped_reached {s t : State} {n : Nat} (h : EndsIn s t n) : t.status ≠ .running ∧ Reaches s t := by
  obtain ⟨fuel, h⟩ := h
  induction fuel generalizing s n with
  | zero =>
    obtain ⟨hs, rfl, -⟩ | ⟨_, _, _, hfuel, -⟩ := runFor_eq_some h
    · exact ⟨hs, reaches_refl t⟩
    · cases hfuel
  | succ fuel ih =>
    obtain ⟨hs, rfl, -⟩ | ⟨_, u, m, hfuel, hu, hr, -⟩ := runFor_eq_some h
    · exact ⟨hs, reaches_refl t⟩
    · cases hfuel
      obtain ⟨ht, hreach⟩ := ih hr
      exact ⟨ht, reaches_of_step hu hreach⟩

theorem runsForever_of_step {s t : State} (h : RunsForever s) (ht : step s = .next t) : RunsForever t := by
  intro fuel
  have hs := h (fuel + 1)
  rwa [runFor_of_step ht, Option.map_eq_none_iff] at hs

theorem RunsForever.running {s : State} (h : RunsForever s) : s.status = .running := by
  by_contra hs
  have hend := h 0
  rw [runFor_of_not_running hs] at hend
  cases hend

theorem runsForever_iff {s : State} : RunsForever s ↔ ∀ t, Reaches s t → t.status = .running := by
  constructor
  · intro h t hreach
    exact (reaches_induction (P := RunsForever) (fun _ _ => runsForever_of_step) h hreach).running
  · intro h fuel
    induction fuel generalizing s with
    | zero => rw [runFor_zero, if_pos (h s (reaches_refl s))]
    | succ fuel ih =>
      obtain ⟨t, ht⟩ := exists_step (h s (reaches_refl s))
      rw [runFor_of_step ht, ih fun u hu => h u (reaches_of_step ht hu)]
      rfl

/-- Settles O50: `endsIn_stopped_reached` for the runs that end, `runsForever_iff` for the others. -/
theorem runEndsHaltedOrFaultedOrNever : Obligations.RunEndsHaltedOrFaultedOrNever := by
  unfold Obligations.RunEndsHaltedOrFaultedOrNever
  refine fun s => ⟨fun t n h => ?_, ⟨fun h fuel => ?_, ?_⟩, runsForever_iff⟩
  · obtain ⟨ht, hreach⟩ := endsIn_stopped_reached h
    cases hstatus : t.status with
    | running => exact absurd hstatus ht
    | halted => exact ⟨.inl rfl, hreach⟩
    | faulted => exact ⟨.inr rfl, hreach⟩
  · cases hr : runFor fuel s with
    | none => rfl
    | some r => exact absurd ⟨r.1, r.2, fuel, hr⟩ h
  · rintro h ⟨t, n, fuel, hend⟩
    rw [h fuel] at hend
    cases hend

/-- Settles O51: the jump is a step from the state to itself, so the run passes through no other. -/
theorem jumpToItselfRunsForever : Obligations.JumpToItselfRunsForever := by
  unfold Obligations.JumpToItselfRunsForever
  intro s imm hs hpc himm hi
  have hself : step s = .next s := (step_jump hs hpc hi).trans (congrArg _ (setPc_jumpTarget_self himm))
  have honly : ∀ t, Reaches s t → t = s := fun t =>
    reaches_induction (P := (· = s)) (fun t u ht hu => by
      subst ht
      exact Host.Outcome.next.inj (hu.symm.trans hself)) rfl
  exact runsForever_iff.mpr fun t ht => honly t ht ▸ hs

end Sys2Proof.Machine
end

section
/-! The life of an engine before its run (70_reset_and_hazards.md R190 to R195): reset, the two loads, the start. -/

namespace Sys2Proof.Machine

/-! ## Canonical memories (log 2) -/

namespace Memory

variable {w : Nat}

/-- The first entry of a canonical memory is seen by a read, so a memory that reads alike lists nothing but higher
addresses only if it lists nothing at all. -/
theorem exists_le_of_read_eq {x : Nat × BitVec w} {m m' : Memory w} (hm : wf (x :: m))
    (h : ∀ a, read (x :: m) a = read m' a) : ∃ y ∈ m', y.1 ≤ x.1 := by
  by_contra hnone
  simp only [not_exists, not_and, Nat.not_le] at hnone
  have hx := h x.1
  rw [read_cons, if_pos rfl, read_eq_zero_of_lt hnone] at hx
  exact hm.2 x List.mem_cons_self hx

theorem wf_tail {x : Nat × BitVec w} {m : Memory w} (h : wf (x :: m)) : wf m :=
  ⟨(List.pairwise_cons.mp h.1).2, fun y hy => h.2 y (List.mem_cons_of_mem x hy)⟩

/-- The first address of a canonical memory is its least. -/
theorem head_le {x y : Nat × BitVec w} {m : Memory w} (h : wf (x :: m)) (hy : y ∈ x :: m) : x.1 ≤ y.1 := by
  rcases List.mem_cons.mp hy with rfl | hy
  · exact Nat.le_refl _
  · exact Nat.le_of_lt ((List.pairwise_cons.mp h.1).1 y hy)

/-- What a canonical memory reads as without its first entry. -/
theorem read_tail {x : Nat × BitVec w} {m : Memory w} (h : wf (x :: m)) (a : Nat) :
    read m a = if a = x.1 then 0 else read (x :: m) a := by
  split
  · next ha => exact ha ▸ read_eq_zero_of_lt (List.pairwise_cons.mp h.1).1
  · next ha => rw [read_cons, if_neg ha]

end Memory

/-- Settles O42: by induction on the first list; each list's first entry is found in the other, so both have the same
first address, and there the same entry. -/
theorem canonicalMemoriesThatReadAlikeAreEqual : Obligations.CanonicalMemoriesThatReadAlikeAreEqual := by
  unfold Obligations.CanonicalMemoriesThatReadAlikeAreEqual
  intro w m
  induction m with
  | nil =>
    intro m' _ hm' h
    cases m' with
    | nil => rfl
    | cons y m' =>
      obtain ⟨_, hx, _⟩ := Memory.exists_le_of_read_eq hm' fun a => (h a).symm
      cases hx
  | cons x m ih =>
    intro m' hm hm' h
    obtain ⟨y', hy', hle'⟩ := Memory.exists_le_of_read_eq hm h
    cases m' with
    | nil => cases hy'
    | cons y m' =>
      obtain ⟨x', hx', hle⟩ := Memory.exists_le_of_read_eq hm' fun a => (h a).symm
      have haddr : x.1 = y.1 :=
        Nat.le_antisymm ((Memory.head_le hm hx').trans hle) ((Memory.head_le hm' hy').trans hle')
      have hentry : x.2 = y.2 := by
        have hx := h x.1
        rwa [Memory.read_cons, Memory.read_cons, if_pos rfl, if_pos haddr] at hx
      have htail : m = m' := ih m' (Memory.wf_tail hm) (Memory.wf_tail hm') fun a => by
        rw [Memory.read_tail hm, Memory.read_tail hm', haddr, h a]
      rw [htail, Prod.ext haddr hentry]

/-! ## Reset (10_state.md R40) -/

theorem construct_reg (p : Params) (r : RegIdx) : (State.construct p).reg r = 0 :=
  Vector.getElem_replicate r.isLt

/-- Settles O8: the fields that `construct` writes, and `construct_reg` for the registers. -/
theorem resetLeavesZeroEqualRunning : Obligations.ResetLeavesZeroEqualRunning := by
  unfold Obligations.ResetLeavesZeroEqualRunning
  refine ⟨fun r => ?_, rfl, rfl, fun _ => rfl, fun _ => rfl, rfl, rfl, rfl⟩
  exact congrArg uint (construct_reg Params.standard r)

theorem inv_construct {p : Params} (h : p.Admissible) : (State.construct p).Inv :=
  ⟨h, Nat.zero_le _, Memory.wf_nil, Memory.within_nil _, Memory.wf_nil, Memory.within_nil _, nofun,
    fun hc => absurd rfl hc⟩

/-- Settles O9: the default parameters are admissible. -/
theorem resetSatisfiesInvariant : Obligations.ResetSatisfiesInvariant := by
  unfold Obligations.ResetSatisfiesInvariant
  exact inv_construct (by decide)

/-! ## Bit forms (10_state.md R28, R29; 60_exceptions.md R161) -/

/-- The flag that two bits stand for; `0b11` is never shown. -/
def flagOfBits (b : BitVec 2) : Flag := if b = 1 then .greater else if b = 2 then .less else .equal

theorem flagOfBits_flagBits : Function.LeftInverse flagOfBits flagBits := fun f => by cases f <;> rfl

/-- The status that two bits stand for; `3` is never shown. -/
def statusOfBits (b : BitVec 2) : RunStatus := if b = 1 then .halted else if b = 2 then .faulted else .running

theorem statusOfBits_statusBits : Function.LeftInverse statusOfBits statusBits := fun a => by cases a <;> rfl

/-- The cause that a code stands for; 5 to 7 are never written. -/
def causeOfCode (c : BitVec 3) : FaultCause :=
  if c = 1 then .invalidOpcodeOp
  else if c = 2 then .invalidOpcodeReg
  else if c = 3 then .fetchFault
  else if c = 4 then .dataAddressFault
  else .none

theorem causeOfCode_causeCode : Function.LeftInverse causeOfCode causeCode := fun c => by cases c <;> rfl

/-- Settles O10: the codes are distinct because each of the three bit forms can be read back. -/
theorem latchBitFormsAreDistinct : Obligations.LatchBitFormsAreDistinct := by
  unfold Obligations.LatchBitFormsAreDistinct
  exact ⟨rfl, rfl, rfl, rfl, rfl, rfl, rfl, fun _ => rfl, rfl, fun _ => rfl, fun _ => rfl,
    fun _ _ h => flagOfBits_flagBits.injective h, fun f => by cases f <;> decide,
    fun _ _ h => statusOfBits_statusBits.injective h, fun a => by cases a <;> decide,
    fun _ _ h => causeOfCode_causeCode.injective h, fun c => by cases c <;> decide, rfl, rfl, rfl⟩

/-! ## The two loads (R193, R194) -/

/-- What holds of every element of a sequence and of 0 holds at every index. -/
theorem getD_of_forall {P : Int → Prop} {l : List Int} (h : ∀ v ∈ l, P v) (h0 : P 0) (k : Nat) : P (l.getD k 0) := by
  by_cases hk : k < l.length
  · rw [List.getD_eq_getElem l 0 hk]
    exact h _ (List.getElem_mem hk)
  · rw [List.getD_eq_default l 0 (Nat.le_of_not_lt hk)]
    exact h0

/-- What a memory loaded with truncated values reads as. -/
theorem read_ofList_trunc (n : Nat) (l : List Int) (k : Nat) :
    Memory.read (Memory.ofList (l.map (trunc n))) k = trunc n (l.getD k 0) := by
  have hzero : trunc n 0 = 0 := by simp [trunc]
  rw [Memory.read_ofList, ← hzero, List.getD_map]

/-- A program that `load_program` accepts (R193, D19). -/
abbrev ProgramFits (program : List Int) (s : State) : Prop :=
  program.length ≤ s.params.imemWords ∧ ∀ w ∈ program, 0 ≤ w ∧ w < 2 ^ 32

/-- Data that `load_data` accepts (R194, D19). -/
abbrev DataFits (data : List Int) (s : State) : Prop :=
  data.length ≤ s.params.dmemWords ∧ ∀ v ∈ data, -(2 : Int) ^ (s.xlen - 1) ≤ v ∧ v < 2 ^ (s.xlen - 1)

/-- The state with `program` in instruction memory. -/
def State.withProgram (s : State) (program : List Int) : State :=
  { s with imem := Memory.ofList (program.map (trunc 32)) }

/-- The state with `data` in data memory. -/
def State.withData (s : State) (data : List Int) : State := { s with dmem := Memory.ofList (data.map (trunc s.xlen)) }

theorem loadProgram_eq_ok {program : List Int} {s t : State} :
    loadProgram program s = .ok t ↔ ProgramFits program s ∧ t = s.withProgram program := by
  constructor
  · intro h
    obtain ⟨hlen, hrange, ht⟩ := loadProgram_ok h
    exact ⟨⟨hlen, hrange⟩, ht⟩
  · rintro ⟨⟨hlen, hrange⟩, rfl⟩
    rw [loadProgram, if_neg (Nat.not_lt.mpr hlen), if_pos hrange]
    rfl

theorem loadData_eq_ok {data : List Int} {s t : State} :
    loadData data s = .ok t ↔ DataFits data s ∧ t = s.withData data := by
  constructor
  · intro h
    obtain ⟨hlen, hrange, ht⟩ := loadData_ok h
    exact ⟨⟨hlen, hrange⟩, ht⟩
  · rintro ⟨⟨hlen, hrange⟩, rfl⟩
    rw [loadData, if_neg (Nat.not_lt.mpr hlen), if_pos hrange]
    rfl

/-- Settles O44: an accepted word is its own remainder modulo 2^32. -/
theorem loadProgramPlacesWordsFromZero : Obligations.LoadProgramPlacesWordsFromZero := by
  unfold Obligations.LoadProgramPlacesWordsFromZero
  refine fun program s => ⟨fun hlen => if_pos hlen, fun hlen ⟨w, hw, hout⟩ => ?_, fun hlen hrange => ?_⟩
  · rw [loadProgram, if_neg (Nat.not_lt.mpr hlen), if_neg fun hall => ?_]
    obtain ⟨h0, h1⟩ := hall w hw
    omega
  · refine ⟨_, loadProgram_eq_ok.mpr ⟨⟨hlen, hrange⟩, rfl⟩, fun k => ?_, fun _ => rfl, fun _ => rfl, rfl, rfl,
      ⟨rfl, rfl⟩, rfl⟩
    obtain ⟨h0, h1⟩ := getD_of_forall hrange (by decide) k
    calc (uint ((s.withProgram program).word k) : Int)
      _ = uint (trunc 32 (program.getD k 0)) := by rw [← read_ofList_trunc]; rfl
      _ = program.getD k 0 % 2 ^ 32 := uint_trunc 32 _
      _ = program.getD k 0 := Int.emod_eq_of_lt h0 h1

/-- Settles O45: an accepted value fits the width, so truncation keeps its signed reading. -/
theorem loadDataPlacesValuesVerbatim : Obligations.LoadDataPlacesValuesVerbatim := by
  unfold Obligations.LoadDataPlacesValuesVerbatim
  refine fun data s hadm => ⟨fun hlen => if_pos hlen, fun hlen ⟨v, hv, hout⟩ => ?_, fun hlen hrange => ?_⟩
  · rw [loadData, if_neg (Nat.not_lt.mpr hlen), if_neg fun hall => ?_]
    obtain ⟨h0, h1⟩ := hall v hv
    omega
  · refine ⟨_, loadData_eq_ok.mpr ⟨⟨hlen, hrange⟩, rfl⟩, fun k => ?_, fun _ => rfl, rfl, rfl, rfl, ⟨rfl, rfl⟩, rfl⟩
    have hn : 0 < s.xlen := Nat.lt_of_lt_of_le (by decide) hadm.1
    obtain ⟨h0, h1⟩ := getD_of_forall hrange ⟨by simp, by positivity⟩ k
    calc sint ((s.withData data).cell k)
      _ = sint (trunc s.xlen (data.getD k 0)) := by rw [← read_ofList_trunc]; rfl
      _ = data.getD k 0 := sint_trunc_of_fits hn h0 h1

/-! ## The life of an engine (R192) -/

theorem inv_withProgram {s : State} {program : List Int} (h : s.Inv) (hfits : ProgramFits program s) :
    (s.withProgram program).Inv := by
  obtain ⟨hp, hpc, -, -, hdmem⟩ := h
  exact ⟨hp, hpc, Memory.wf_ofList _, Memory.within_ofList ((List.length_map _).trans_le hfits.1), hdmem⟩

theorem inv_withData {s : State} {data : List Int} (h : s.Inv) (hfits : DataFits data s) : (s.withData data).Inv := by
  obtain ⟨hp, hpc, hiwf, hicap, -, -, hlatch⟩ := h
  exact ⟨hp, hpc, hiwf, hicap, Memory.wf_ofList _, Memory.within_ofList ((List.length_map _).trans_le hfits.1), hlatch⟩

theorem inv_hostRequest {e e' : Engine} {r : HostRequest} (h : e.state.Inv) (hr : hostRequest e r = .ok e') :
    e'.state.Inv := by
  obtain ⟨program, s, -, -, -, hs, rfl⟩ | ⟨data, s, -, -, -, hs, rfl⟩ | ⟨-, -, -, rfl⟩ := hostRequest_ok hr
  · obtain ⟨hfits, rfl⟩ := loadProgram_eq_ok.mp hs
    exact inv_withProgram h hfits
  · obtain ⟨hfits, rfl⟩ := loadData_eq_ok.mp hs
    exact inv_withData h hfits
  · exact h

theorem constructEngine_ok {p : Params} {e : Engine} (h : constructEngine p = .ok e) :
    p.Admissible ∧ e = ⟨State.construct p, false, false, false⟩ := by
  unfold constructEngine at h
  split at h
  · next hp => cases h; exact ⟨hp, rfl⟩
  · cases h

/-- Settles O46: the invariant holds at construction and every request keeps it. -/
theorem loadedEnginesSatisfyInvariant : Obligations.LoadedEnginesSatisfyInvariant := by
  unfold Obligations.LoadedEnginesSatisfyInvariant
  intro p e e' requests he h
  obtain ⟨hp, rfl⟩ := constructEngine_ok he
  exact hostRequests_keep (P := fun e => e.state.Inv) (fun _ _ _ => inv_hostRequest) (inv_construct hp) h

theorem hostRequest_loadProgram_eq_ok {e e' : Engine} {program : List Int} :
    hostRequest e (.loadProgram program) = .ok e' ↔ e.programLoaded = false ∧ e.started = false ∧
      ProgramFits program e.state ∧ e' = { e with state := e.state.withProgram program, programLoaded := true } := by
  constructor
  · intro h
    obtain ⟨_, s, hr, hp, hs, hload, rfl⟩ | ⟨_, _, hr, -⟩ | ⟨hr, -⟩ := hostRequest_ok h
    · cases hr
      obtain ⟨hfits, rfl⟩ := loadProgram_eq_ok.mp hload
      exact ⟨hp, hs, hfits, rfl⟩
    · cases hr
    · cases hr
  · rintro ⟨hp, hs, hfits, rfl⟩
    simp [hostRequest, hp, hs, loadProgram_eq_ok.mpr ⟨hfits, rfl⟩]

theorem hostRequest_loadData_eq_ok {e e' : Engine} {data : List Int} :
    hostRequest e (.loadData data) = .ok e' ↔ e.dataLoaded = false ∧ e.started = false ∧
      DataFits data e.state ∧ e' = { e with state := e.state.withData data, dataLoaded := true } := by
  constructor
  · intro h
    obtain ⟨_, _, hr, -⟩ | ⟨_, s, hr, hd, hs, hload, rfl⟩ | ⟨hr, -⟩ := hostRequest_ok h
    · cases hr
    · cases hr
      obtain ⟨hfits, rfl⟩ := loadData_eq_ok.mp hload
      exact ⟨hd, hs, hfits, rfl⟩
    · cases hr
  · rintro ⟨hd, hs, hfits, rfl⟩
    simp [hostRequest, hd, hs, loadData_eq_ok.mpr ⟨hfits, rfl⟩]

/-- No request takes back what the bookkeeping of an engine says. -/
theorem hostRequest_mono {e e' : Engine} {r : HostRequest} (h : hostRequest e r = .ok e') :
    (e.programLoaded = true → e'.programLoaded = true) ∧ (e.dataLoaded = true → e'.dataLoaded = true) := by
  obtain ⟨_, _, -, -, -, -, rfl⟩ | ⟨_, _, -, -, -, -, rfl⟩ | ⟨-, -, -, rfl⟩ := hostRequest_ok h
  · exact ⟨fun _ => rfl, id⟩
  · exact ⟨id, fun _ => rfl⟩
  · exact ⟨id, id⟩

theorem started_of_request {e e' : Engine} (h : hostRequest e .start = .ok e') : e'.started = true := by
  obtain ⟨_, _, hr, -⟩ | ⟨_, _, hr, -⟩ | ⟨-, -, -, rfl⟩ := hostRequest_ok h
  · cases hr
  · cases hr
  · rfl

theorem hostRequest_of_started {e : Engine} (h : e.started = true) (r : HostRequest) :
    hostRequest e r = .error .outOfOrder := by
  cases r <;> simp [hostRequest, h]

/-- Settles O47: the bookkeeping that refuses a second request is set by the first and never taken back. -/
theorem loadsAndStartHappenAtMostOnce : Obligations.LoadsAndStartHappenAtMostOnce := by
  unfold Obligations.LoadsAndStartHappenAtMostOnce
  refine fun e e₁ e₂ later => ⟨fun p q h hlater => ?_, fun p q h hlater => ?_,
    fun h => hostRequest_of_started (started_of_request h)⟩
  · obtain ⟨-, -, -, rfl⟩ := hostRequest_loadProgram_eq_ok.mp h
    have hloaded : e₂.programLoaded = true := hostRequests_keep (P := fun e => e.programLoaded = true)
      (fun _ _ _ he hr => (hostRequest_mono hr).1 he) rfl hlater
    simp [hostRequest, hloaded]
  · obtain ⟨-, -, -, rfl⟩ := hostRequest_loadData_eq_ok.mp h
    have hloaded : e₂.dataLoaded = true := hostRequests_keep (P := fun e => e.dataLoaded = true)
      (fun _ _ _ he hr => (hostRequest_mono hr).2 he) rfl hlater
    simp [hostRequest, hloaded]

theorem hostRequests_pair {e e' : Engine} {r r' : HostRequest} :
    hostRequests e [r, r'] = .ok e' ↔ ∃ e₁, hostRequest e r = .ok e₁ ∧ hostRequest e₁ r' = .ok e' := by
  simp only [hostRequests, bind_eq_ok, Except.ok.injEq, exists_eq_right]

/-- Settles O48: each load's conditions and effect are untouched by the other, which writes the other memory. -/
theorem programAndDataLoadsCommute : Obligations.ProgramAndDataLoadsCommute := by
  unfold Obligations.ProgramAndDataLoadsCommute
  intro e e' program data
  simp only [hostRequests_pair, hostRequest_loadProgram_eq_ok, hostRequest_loadData_eq_ok]
  constructor
  · rintro ⟨e₁, ⟨hp, hs, hprogram, rfl⟩, hd, -, hdata, rfl⟩
    exact ⟨_, ⟨hd, hs, hdata, rfl⟩, hp, hs, hprogram, rfl⟩
  · rintro ⟨e₁, ⟨hd, hs, hdata, rfl⟩, hp, -, hprogram, rfl⟩
    exact ⟨_, ⟨hp, hs, hprogram, rfl⟩, hd, hs, hdata, rfl⟩

end Sys2Proof.Machine
end

section
/-! The block-level machine (10_state.md R36 to R39). The fetch bound and the decoder block's outputs are the error of
`fetchInstr` and the register check; of a legal word, each row of the steering table forms the data address of its
instruction and commits its writes. -/

namespace Sys2Proof.Machine

/-! ## Ports -/

section Ports

variable {op : Opcode} {dst src1 src2 : RegSel} {imm : Imm} {r : RegIdx} (s : State) (idle : Nat)

theorem readPort_dst (h : dst.toNat = r.val) : readPort s ⟨op, dst, src1, src2, imm⟩ idle .dst = s.reg r :=
  dite_of_select h s.reg _

theorem readPort_src1 (h : src1.toNat = r.val) : readPort s ⟨op, dst, src1, src2, imm⟩ idle .src1 = s.reg r :=
  dite_of_select h s.reg _

theorem readPort_src2 (h : src2.toNat = r.val) : readPort s ⟨op, dst, src1, src2, imm⟩ idle .src2 = s.reg r :=
  dite_of_select h s.reg _

theorem writePort_enabled (h : dst.toNat = r.val) (v : BitVec s.xlen) :
    writePort s true dst v = (s.setReg r v).regs := by
  have hlt : dst.toNat < 5 := h ▸ r.isLt
  have hreg : (⟨dst.toNat, hlt⟩ : RegIdx) = r := Fin.ext h
  rw [writePort, dif_pos ⟨rfl, hlt⟩, ← hreg]
  rfl

theorem writePort_disabled (v : BitVec s.xlen) : writePort s false dst v = s.regs :=
  dif_neg fun h => Bool.false_ne_true h.1

end Ports

/-! ## The rows of the steering table -/

/-- A legal word's row forms the data address of its instruction. -/
theorem accessAddress_eq {f : Fields} {i : Instr} (h : f.toInstr = .ok i) (hwf : i.wf = true) (idle : Nat) (s : State) :
    accessAddress f (sint (readPort s f idle (steering f.opcode).portA)) (steering f.opcode).mem =
      dataAddressOf i s := by
  obtain ⟨op, dst, src1, src2, imm⟩ := f
  obtain hop | rfl | rfl | rfl | rfl | rfl | rfl | rfl | rfl | rfl := opcode_cases op
  · rw [Fields.toInstr_undefined hop] at h
    cases h
  all_goals cases h
  case inr.inl =>
    obtain ⟨a, ha⟩ := exists_regIdx_of_wf hwf (r := src1) (by simp [Instr.regFields])
    rw [dataAddressOf_load ha]
    exact congrArg (fun v => some (sint v)) (readPort_src1 s idle ha)
  all_goals rfl

/-- A legal word's row, where its access is inside data memory, commits its instruction's writes. -/
theorem exec_eq_datapathCommit {f : Fields} {i : Instr} (h : f.toInstr = .ok i) (hwf : i.wf = true) (idle : Nat)
    {s : State} (hk : ∀ k, dataAddressOf i s = some k → InData s k) :
    exec i s = .next (datapathCommit idle f s) := by
  obtain ⟨op, dst, src1, src2, imm⟩ := f
  obtain hop | rfl | rfl | rfl | rfl | rfl | rfl | rfl | rfl | rfl := opcode_cases op
  · rw [Fields.toInstr_undefined hop] at h
    cases h
  all_goals cases h
  · obtain ⟨d, hd⟩ := exists_regIdx_of_wf hwf (r := dst) (by simp [Instr.regFields])
    obtain ⟨a, ha⟩ := exists_regIdx_of_wf hwf (r := src1) (by simp [Instr.regFields])
    obtain ⟨h0, hlt⟩ := hk _ (dataAddressOf_load ha s)
    rw [exec_load_of_regs hd ha (Int.toNat_of_nonneg h0).symm (by omega)]
    simp [datapathCommit, steering, readPort_src1 s idle ha, writePort_enabled s hd, alu, aluPass,
      State.regInt, State.nextPc, State.setPc, State.setReg]
  · obtain ⟨d, hd⟩ := exists_regIdx_of_wf hwf (r := dst) (by simp [Instr.regFields])
    obtain ⟨_, hlt⟩ := hk _ rfl
    rw [exec_store_of_reg hd (Int.ofNat_lt.mp hlt)]
    simp [datapathCommit, steering, readPort_dst s idle hd, writePort_disabled s, State.nextPc, State.setPc,
      State.setCell]
  · obtain ⟨d, hd⟩ := exists_regIdx_of_wf hwf (r := dst) (by simp [Instr.regFields])
    obtain ⟨a, ha⟩ := exists_regIdx_of_wf hwf (r := src1) (by simp [Instr.regFields])
    obtain ⟨b, hb⟩ := exists_regIdx_of_wf hwf (r := src2) (by simp [Instr.regFields])
    rw [exec_add_of_regs hd ha hb]
    simp [datapathCommit, steering, readPort_src1 s idle ha, readPort_src2 s idle hb, writePort_enabled s hd, alu,
      State.nextPc, State.setPc, State.setReg]
  · by_cases hf : s.flag = .equal
    · rw [exec_jumpIf_taken hf]
      simp [datapathCommit, steering, writePort_disabled s, hf, State.setPc, jumpTarget]
    · rw [exec_jumpIf_untaken hf]
      simp [datapathCommit, steering, writePort_disabled s, hf, State.nextPc, State.setPc]
  · rw [exec_jump]
    simp [datapathCommit, steering, writePort_disabled s, State.setPc, jumpTarget]
  · rw [exec_terminate]
    simp [datapathCommit, steering, writePort_disabled s, State.nextPc, State.setPc, State.halt]
  · obtain ⟨a, ha⟩ := exists_regIdx_of_wf hwf (r := dst) (by simp [Instr.regFields])
    obtain ⟨b, hb⟩ := exists_regIdx_of_wf hwf (r := src1) (by simp [Instr.regFields])
    rw [exec_cmp_of_regs ha hb]
    simp [datapathCommit, steering, readPort_dst s idle ha, readPort_src1 s idle hb, writePort_disabled s, alu,
      State.nextPc, State.setPc, State.setFlag]
  · obtain ⟨d, hd⟩ := exists_regIdx_of_wf hwf (r := dst) (by simp [Instr.regFields])
    rw [exec_inc_of_reg hd]
    simp [datapathCommit, steering, readPort_dst s idle hd, writePort_enabled s hd, alu,
      State.nextPc, State.setPc, State.setReg]
  · obtain ⟨d, hd⟩ := exists_regIdx_of_wf hwf (r := dst) (by simp [Instr.regFields])
    rw [exec_move_of_reg hd]
    simp [datapathCommit, steering, writePort_enabled s hd, alu, aluPass,
      State.nextPc, State.setPc, State.setReg]

/-- Settles O43: the same bounds are checked in the same order, and of a word that passes them `accessAddress_eq` and
`exec_eq_datapathCommit` compare the access and the commit. -/
theorem datapathMakesTheSameStep : Obligations.DatapathMakesTheSameStep := by
  unfold Obligations.DatapathMakesTheSameStep
  intro idle s
  cases hs : s.status with
  | halted => simp only [datapathStep, hs, step_halted hs]
  | faulted => simp only [datapathStep, hs, step_faulted hs]
  | running =>
    simp only [datapathStep, hs]
    by_cases hpc : s.pc.toNat < s.params.imemWords
    · rw [if_pos hpc]
      cases hdec : decode (s.word s.pc.toNat) with
      | error e =>
        obtain ⟨hop, -⟩ := decode_eq_error.mp hdec
        have hinvalid : (decoderBlock (s.word s.pc.toNat)).opValid = false := decide_eq_false (Nat.not_le.mpr hop)
        rw [if_pos hinvalid]
        rw [Fields.ofWord_opcode_toNat] at hop
        exact (step_of_fetchInstr_error hs (fetchInstr_undefined hpc hop)).symm
      | ok i =>
        have hvalid : ¬ (decoderBlock (s.word s.pc.toNat)).opValid = false := by
          simp [decoderBlock, (Fields.toInstr_ok hdec).1]
        rw [if_neg hvalid, decoderBlock_illegal hdec, step_of_decode hs hpc hdec]
        have hfields : (decoderBlock (s.word s.pc.toNat)).fields = Fields.ofWord (s.word s.pc.toNat) := rfl
        simp only [hfields]
        obtain ⟨hwf, h⟩ | ⟨hwf, k, hi, hk, h⟩ | ⟨hwf, hk, -⟩ := exec_outcome i s
        · simp [hwf, h]
        · simp only [hwf, Bool.not_true, Bool.false_eq_true, if_false, accessAddress_eq hdec hwf, hi, if_neg hk, h]
        · simp only [hwf, Bool.not_true, Bool.false_eq_true, if_false, accessAddress_eq hdec hwf,
            exec_eq_datapathCommit hdec hwf idle hk]
          cases hi : dataAddressOf i s with
          | none => rfl
          | some k => exact if_pos (hk k hi)
    · rw [if_neg hpc]
      exact (step_of_fetchInstr_error hs (fetchInstr_beyond (Nat.le_of_not_lt hpc))).symm

end Sys2Proof.Machine
end

section
/-! The two passes of the assembler (30_encoding.md section 7). Pass 1 is cut into its three results: the labels, the
drafts of the words (each with the label it waits for, if any) and the fixups, which are read off the drafts. Pass 2
finishes the drafts one by one, and a draft finished under the complete table is the line encoded under it at once
(`instructionWord_knows`). -/

namespace Sys2Proof.Machine.Asm

/-! ## Drafts -/

/-- The word of a line as pass 1 leaves it, and the label that its `imm` field waits for (R87 step 4). -/
abbrev Draft := InstrWord × Option Text

/-- `w` is the draft's word under the complete table: the draft itself, or its patch (R91). -/
def Finishes (full : SymbolTable) (d : Draft) (w : InstrWord) : Prop :=
  match d.2 with
  | none => w = d.1
  | some name => ∃ n, full.lookup name = some n ∧ n < 2 ^ 19 ∧ w = patchWord d.1 n

/-- The drafts of the instruction lines, where `symbols` are the labels and `k` the number of words before them. -/
def drafts : SymbolTable → Nat → List Text → Except AsmError (List Draft)
  | _, _, [] => .ok []
  | symbols, k, line :: rest =>
    match classify line with
    | .blank => drafts symbols k rest
    | .comment => drafts symbols k rest
    | .label name => drafts (symbols ++ [(name, k)]) k rest
    | .instruction tokens => do
      let d ← instructionWord symbols tokens
      let ds ← drafts symbols (k + 1) rest
      .ok (d :: ds)

theorem drafts_instruction {symbols : SymbolTable} {k : Nat} {line : Text} {rest tokens : List Text} {ds : List Draft}
    (hc : classify line = .instruction tokens) : drafts symbols k (line :: rest) = .ok ds ↔
      ∃ d ds', instructionWord symbols tokens = .ok d ∧ drafts symbols (k + 1) rest = .ok ds' ∧ ds = d :: ds' := by
  simp only [drafts, hc, bind_eq_ok, Except.ok.injEq, exists_and_left, @eq_comm _ ds]

/-- The fixups of drafts whose first word has index `k`. -/
def fixupsFrom : Nat → List Draft → List Fixup
  | _, [] => []
  | k, d :: ds => (d.2.map fun name => Fixup.mk name k).toList ++ fixupsFrom (k + 1) ds

/-! ## Pass 1 -/

/-- None of the names is a label already, and no two of them are the same. -/
def Fresh (symbols : SymbolTable) (names : List Text) : Prop :=
  names.Nodup ∧ ∀ name ∈ names, symbols.lookup name = none

theorem fresh_nil_left {names : List Text} : Fresh [] names ↔ names.Nodup := by
  simp [Fresh]

/-- The first name is no label, and the others are fresh once it is one. -/
theorem fresh_cons {symbols : SymbolTable} {name : Text} {names : List Text} (k : Nat) :
    Fresh symbols (name :: names) ↔ symbols.lookup name = none ∧ Fresh (symbols ++ [(name, k)]) names := by
  have hlookup : ∀ x, (symbols ++ [(name, k)]).lookup x = none ↔ symbols.lookup x = none ∧ x ≠ name := by
    intro x
    rw [List.lookup_append, Option.or_eq_none_iff]
    exact and_congr_right' (by simp [List.lookup_eq_none_iff])
  simp only [Fresh, List.nodup_cons, List.forall_mem_cons, hlookup, forall_and]
  constructor
  · rintro ⟨⟨hname, hnodup⟩, hnone, hrest⟩
    exact ⟨hnone, hnodup, hrest, fun x hx hxn => hname (hxn ▸ hx)⟩
  · rintro ⟨hnone, hnodup, hrest, hne⟩
    exact ⟨⟨fun hmem => hne name hmem rfl, hnodup⟩, hnone, hrest⟩

/-- What pass 1 carries after further labels and drafts. -/
def Pass1.extend (p : Pass1) (labels : SymbolTable) (ds : List Draft) : Pass1 where
  symbols := p.symbols ++ labels
  words := p.words ++ ds.map Prod.fst
  fixups := p.fixups ++ fixupsFrom p.words.length ds

theorem extend_nil (p : Pass1) : p.extend [] [] = p := by
  simp [Pass1.extend, fixupsFrom]

theorem extend_label (p : Pass1) (name : Text) (k : Nat) (labels : SymbolTable) (ds : List Draft) :
    (Pass1.mk (p.symbols ++ [(name, k)]) p.words p.fixups).extend labels ds = p.extend ((name, k) :: labels) ds := by
  simp [Pass1.extend]

theorem extend_draft (p : Pass1) (d : Draft) (labels : SymbolTable) (ds : List Draft) :
    (Pass1.mk p.symbols (p.words ++ [d.1])
      (p.fixups ++ (d.2.map fun name => Fixup.mk name p.words.length).toList)).extend labels ds =
      p.extend labels (d :: ds) := by
  simp [Pass1.extend, fixupsFrom]

/-- Pass 1 succeeds exactly when the labels are fresh and every instruction line has a draft, and then it has added
those. -/
theorem passOne_eq_ok {lines : List Text} {p p' : Pass1} :
    passOne p lines = .ok p' ↔ Fresh p.symbols ((labelIndices p.words.length lines).map Prod.fst) ∧
      ∃ ds, drafts p.symbols p.words.length lines = .ok ds ∧ p' = p.extend (labelIndices p.words.length lines) ds := by
  induction lines generalizing p with
  | nil =>
    constructor
    · rintro ⟨⟩
      exact ⟨⟨.nil, nofun⟩, [], rfl, (extend_nil _).symm⟩
    · rintro ⟨-, _, ⟨⟩, h⟩
      exact congrArg Except.ok ((extend_nil _).symm.trans h.symm)
  | cons line rest ih =>
    cases hc : classify line with
    | blank => simp only [passOne, passOneLine, labelIndices, drafts, hc, ok_bind, ih]
    | comment => simp only [passOne, passOneLine, labelIndices, drafts, hc, ok_bind, ih]
    | label name =>
      simp only [passOne, passOneLine, labelIndices, drafts, hc, List.map_cons, fresh_cons p.words.length]
      cases p.symbols.lookup name with
      | some i => simp
      | none => simp only [ok_bind, ih, extend_label, true_and]
    | instruction tokens =>
      simp only [passOne, passOneLine, labelIndices, hc, drafts_instruction hc]
      cases instructionWord p.symbols tokens with
      | error e => simp
      | ok d =>
        simp only [ok_bind, ih, List.length_append, List.length_singleton, extend_draft, Except.ok.injEq]
        constructor
        · rintro ⟨hfresh, ds, hds, rfl⟩
          exact ⟨hfresh, _, ⟨d, ds, rfl, hds, rfl⟩, rfl⟩
        · rintro ⟨hfresh, _, ⟨_, ds, rfl, hds, rfl⟩, rfl⟩
          exact ⟨hfresh, ds, hds, rfl⟩

/-! ## Pass 2 -/

theorem modify_length_append {α : Type} (pre : List α) (x : α) (rest : List α) (f : α → α) :
    (pre ++ x :: rest).modify pre.length f = pre ++ f x :: rest := by
  induction pre with
  | nil => rfl
  | cons y pre ih => exact congrArg (y :: ·) ih

theorem checkImm_eq_ok {token : Text} {n m : Nat} : checkImm token n = .ok m ↔ n < 2 ^ 19 ∧ m = n := by
  unfold checkImm
  split <;> simp_all [eq_comm]

/-- One fixup of pass 2: its label has an index that fits, and the rest goes on with the patched word. -/
theorem passTwo_cons_eq_ok {full : SymbolTable} {x : Fixup} {rest : List Fixup} {words ws : List InstrWord} :
    passTwo full (x :: rest) words = .ok ws ↔ ∃ n, full.lookup x.name = some n ∧ n < 2 ^ 19 ∧
      passTwo full rest (words.modify x.index fun w => patchWord w n) = .ok ws := by
  rw [passTwo]
  cases full.lookup x.name with
  | none => simp
  | some i =>
    simp only [bind_eq_ok, checkImm_eq_ok, Option.some.injEq]
    constructor
    · rintro ⟨_, ⟨hi, rfl⟩, h⟩
      exact ⟨_, rfl, hi, h⟩
    · rintro ⟨_, rfl, hi, h⟩
      exact ⟨_, ⟨hi, rfl⟩, h⟩

/-- Pass 2 finishes the drafts, behind words that it leaves as they are. -/
theorem passTwo_eq_ok {full : SymbolTable} {ds : List Draft} {pre ws : List InstrWord} :
    passTwo full (fixupsFrom pre.length ds) (pre ++ ds.map Prod.fst) = .ok ws ↔
      ∃ ws', List.Forall₂ (Finishes full) ds ws' ∧ ws = pre ++ ws' := by
  induction ds generalizing pre with
  | nil => simp [fixupsFrom, passTwo, eq_comm]
  | cons d ds ih =>
    obtain ⟨w, pending⟩ := d
    have hnext : ∀ w', passTwo full (fixupsFrom (pre.length + 1) ds) (pre ++ w' :: ds.map Prod.fst) = .ok ws ↔
        ∃ ws', List.Forall₂ (Finishes full) ds ws' ∧ ws = pre ++ w' :: ws' := by
      intro w'
      simpa using ih (pre := pre ++ [w'])
    simp only [List.forall₂_cons_left_iff, List.map_cons]
    cases pending with
    | none =>
      refine (hnext w).trans ?_
      constructor
      · rintro ⟨ws', hds, rfl⟩
        exact ⟨_, ⟨w, ws', rfl, hds, rfl⟩, rfl⟩
      · rintro ⟨_, ⟨_, ws', rfl, hds, rfl⟩, rfl⟩
        exact ⟨ws', hds, rfl⟩
    | some name =>
      have hfix : fixupsFrom pre.length ((w, some name) :: ds) =
          ⟨name, pre.length⟩ :: fixupsFrom (pre.length + 1) ds := rfl
      simp only [hfix, passTwo_cons_eq_ok, modify_length_append, hnext]
      constructor
      · rintro ⟨n, hn, hlt, ws', hds, rfl⟩
        exact ⟨_, ⟨_, ws', ⟨n, hn, hlt, rfl⟩, hds, rfl⟩, rfl⟩
      · rintro ⟨_, ⟨_, ws', ⟨n, hn, hlt, rfl⟩, hds, rfl⟩, rfl⟩
        exact ⟨n, hn, hlt, ws', hds, rfl⟩

/-! ## Direct encoding -/

/-- A line encoded at once is its draft finished. -/
theorem instructionWord_finishes {symbols full : SymbolTable} (h : Knows symbols full) {tokens : List Text}
    {w : InstrWord} : instructionWord full tokens = .ok (w, none) ↔
      ∃ d, instructionWord symbols tokens = .ok d ∧ Finishes full d w := by
  rw [instructionWord_knows h]
  constructor
  · rintro (hw | ⟨name, w₀, n, hw, hn⟩)
    · exact ⟨_, hw, rfl⟩
    · exact ⟨_, hw, n, hn⟩
  · rintro ⟨⟨w₀, _ | name⟩, hw, hfin⟩
    · exact .inl (hw.trans (by rw [show w = w₀ from hfin]))
    · obtain ⟨n, hn⟩ := hfin
      exact .inr ⟨name, w₀, n, hw, hn⟩

/-- An instruction line of direct encoding is encoded with nothing pending. -/
theorem directWords_instruction {full : SymbolTable} {line : Text} {rest : List Text} {tokens : List Text}
    {ws : List InstrWord} (hc : classify line = .instruction tokens) :
    directWords full (line :: rest) = .ok ws ↔
      ∃ w ws', instructionWord full tokens = .ok (w, none) ∧ directWords full rest = .ok ws' ∧ ws = w :: ws' := by
  simp only [directWords, hc, bind_eq_ok]
  constructor
  · rintro ⟨⟨w, _ | name⟩, hw, h⟩
    · obtain ⟨ws', hws, h⟩ := bind_eq_ok.mp h
      cases h
      exact ⟨w, ws', hw, hws, rfl⟩
    · cases h
  · rintro ⟨w, ws', hw, hws, rfl⟩
    exact ⟨_, hw, bind_eq_ok.mpr ⟨ws', hws, rfl⟩⟩

/-- Encoding every line with the complete table known is finishing the drafts. -/
theorem directWords_eq_ok {full symbols : SymbolTable} {k : Nat} {lines : List Text} {ws : List InstrWord}
    (hfull : full = symbols ++ labelIndices k lines) :
    directWords full lines = .ok ws ↔ ∃ ds, drafts symbols k lines = .ok ds ∧ List.Forall₂ (Finishes full) ds ws := by
  induction lines generalizing symbols k ws with
  | nil =>
    constructor
    · rintro ⟨⟩
      exact ⟨[], rfl, .nil⟩
    · rintro ⟨_, ⟨⟩, ⟨⟩⟩
      rfl
  | cons line rest ih =>
    have hknows : Knows symbols full := hfull ▸ knows_append _ _
    cases hc : classify line with
    | blank =>
      simp only [labelIndices, hc] at hfull
      simp only [directWords, drafts, hc, ih hfull]
    | comment =>
      simp only [labelIndices, hc] at hfull
      simp only [directWords, drafts, hc, ih hfull]
    | label name =>
      simp only [labelIndices, hc] at hfull
      rw [List.append_cons] at hfull
      simp only [directWords, drafts, hc, ih hfull]
    | instruction tokens =>
      simp only [labelIndices, hc] at hfull
      simp only [directWords_instruction hc, drafts_instruction hc]
      constructor
      · rintro ⟨w, ws', hw, hws, rfl⟩
        obtain ⟨d, hd, hfin⟩ := (instructionWord_finishes hknows).mp hw
        obtain ⟨ds, hds, hfins⟩ := (ih hfull).mp hws
        exact ⟨_, ⟨d, ds, hd, hds, rfl⟩, .cons hfin hfins⟩
      · rintro ⟨_, ⟨d, ds, hd, hds, rfl⟩, hfins⟩
        obtain ⟨w, ws', hfin, hrest, rfl⟩ := List.forall₂_cons_left_iff.mp hfins
        exact ⟨w, ws', (instructionWord_finishes hknows).mpr ⟨d, hd, hfin⟩, (ih hfull).mpr ⟨ds, hds, hrest⟩, rfl⟩

/-- Settles O53: pass 1 makes the drafts, pass 2 finishes them, and so does direct encoding. -/
theorem twoPassAssemblyEqualsDirectEncoding : Obligations.TwoPassAssemblyEqualsDirectEncoding := by
  unfold Obligations.TwoPassAssemblyEqualsDirectEncoding
  intro lines ws
  have htwo : ∀ ds, passTwo (labelIndices 0 lines) (fixupsFrom 0 ds) (ds.map Prod.fst) = .ok ws ↔
      List.Forall₂ (Finishes (labelIndices 0 lines)) ds ws := by
    intro ds
    simpa using passTwo_eq_ok (full := labelIndices 0 lines) (ds := ds) (pre := []) (ws := ws)
  have hdirect := directWords_eq_ok (full := labelIndices 0 lines) (symbols := []) (ws := ws) rfl
  simp only [compile, bind_eq_ok, passOne_eq_ok, hdirect, List.length_nil, fresh_nil_left]
  constructor
  · rintro ⟨_, ⟨hnodup, ds, hds, rfl⟩, h⟩
    exact ⟨hnodup, ds, hds, (htwo ds).mp h⟩
  · rintro ⟨hnodup, ds, hds, h⟩
    exact ⟨_, ⟨hnodup, ds, hds, rfl⟩, (htwo ds).mpr h⟩

end Sys2Proof.Machine.Asm
end

section
/-! What an assembled line says (30_encoding.md R82, R86 to R88, R93): the instruction that its tokens spell, each
operand in the field of its slot. -/

namespace Sys2Proof.Machine.Asm

/-! ## Operands, slot by slot -/

variable {symbols : SymbolTable} {slots : List Slot} {t : Text} {ts : List Text} {f g : Fields}

theorem operands_nil : operands symbols [] ts f = .ok (g, none) ↔ g = f := by
  simp [operands, eq_comm]

theorem operands_dst : operands symbols (.dst :: slots) (t :: ts) f = .ok (g, none) ↔
    ∃ r, (registerNumber t = some r.toNat ∧ r.valid = true) ∧
      operands symbols slots ts { f with dst := r } = .ok (g, none) := by
  simp only [operands, bind_eq_ok, resolveReg_eq_ok]

theorem operands_src1 : operands symbols (.src1 :: slots) (t :: ts) f = .ok (g, none) ↔
    ∃ r, (registerNumber t = some r.toNat ∧ r.valid = true) ∧
      operands symbols slots ts { f with src1 := r } = .ok (g, none) := by
  simp only [operands, bind_eq_ok, resolveReg_eq_ok]

theorem operands_src2 : operands symbols (.src2 :: slots) (t :: ts) f = .ok (g, none) ↔
    ∃ r, (registerNumber t = some r.toNat ∧ r.valid = true) ∧
      operands symbols slots ts { f with src2 := r } = .ok (g, none) := by
  simp only [operands, bind_eq_ok, resolveReg_eq_ok]

/-- An `imm` slot with nothing pending holds its token's value. -/
theorem operands_imm (h : operands symbols (.imm :: slots) (t :: ts) f = .ok (g, none)) :
    ∃ imm : Imm, immValue symbols t = some imm.toNat ∧ g = { f with imm := imm } := by
  simp only [operands, bind_eq_ok] at h
  obtain ⟨_ | n, hn, h⟩ := h
  · cases h
  · cases h
    obtain ⟨hvalue, hlt⟩ := resolveImm_ok hn
    exact ⟨_, by rw [hvalue, BitVec.toNat_ofNat, Nat.mod_eq_of_lt hlt], rfl⟩

/-! ## Instruction lines -/

/-- A row of the table R86 is found under its own mnemonic. -/
theorem mem_catalog_of_lookup {m : Text} {row : Opcode × List Slot} (h : catalog.lookup m = some row) :
    (m, row) ∈ catalog := by
  obtain ⟨front, back, hsplit, -⟩ := List.lookup_eq_some_iff.mp h
  simp [hsplit]

/-- A line that is encoded has a mnemonic of the table, as many operands as its row has slots, and operand fields. -/
theorem instructionWord_ok {tokens : List Text} {w : InstrWord} (h : instructionWord symbols tokens = .ok (w, none)) :
    ∃ m ts op slots g, tokens = m :: ts ∧ (m.map Char.toUpper, op, slots) ∈ catalog ∧ ts.length = slots.length ∧
      operands symbols slots ts ⟨op, 0, 0, 0, 0⟩ = .ok (g, none) ∧ w = g.encode := by
  cases tokens with
  | nil => cases h
  | cons m ts =>
    simp only [instructionWord] at h
    cases hrow : catalog.lookup (m.map Char.toUpper) with
    | none => rw [hrow] at h; cases h
    | some row =>
      obtain ⟨op, slots⟩ := row
      simp only [hrow] at h
      split at h
      · cases h
      · next hlen =>
        obtain ⟨⟨g, pending⟩, hg, h⟩ := bind_eq_ok.mp h
        cases h
        exact ⟨m, ts, op, slots, g, rfl, mem_catalog_of_lookup hrow, not_not.mp hlen, hg, rfl⟩

/-- An encoded line spells a well-formed instruction, whose canonical word it is (R82, R86). -/
theorem spells_of_instructionWord {tokens : List Text} {w : InstrWord}
    (h : instructionWord symbols tokens = .ok (w, none)) :
    ∃ i, Spells symbols tokens i ∧ i.wf = true ∧ w = encode i := by
  obtain ⟨m, ts, op, slots, g, rfl, hrow, hlen, hg, rfl⟩ := instructionWord_ok h
  simp only [catalog, List.mem_cons, List.not_mem_nil, or_false, Prod.mk.injEq] at hrow
  obtain ⟨hm, rfl, rfl⟩ | ⟨hm, rfl, rfl⟩ | ⟨hm, rfl, rfl⟩ | ⟨hm, rfl, rfl⟩ | ⟨hm, rfl, rfl⟩ | ⟨hm, rfl, rfl⟩ |
    ⟨hm, rfl, rfl⟩ | ⟨hm, rfl, rfl⟩ | ⟨hm, rfl, rfl⟩ := hrow
  · obtain ⟨d, a, rfl⟩ := List.length_eq_two.mp hlen
    obtain ⟨dst, ⟨hd, hdv⟩, src1, ⟨ha, hav⟩, rfl⟩ := by simpa only [operands_dst, operands_src1, operands_nil] using hg
    exact ⟨.load dst src1, ⟨m, d, a, rfl, hm, hd, ha⟩, by simp [Instr.wf, Instr.regFields, hdv, hav], rfl⟩
  · obtain ⟨d, a, rfl⟩ := List.length_eq_two.mp hlen
    obtain ⟨dst, ⟨hd, hdv⟩, hg⟩ := operands_dst.mp hg
    obtain ⟨imm, ha, rfl⟩ := operands_imm hg
    exact ⟨.store dst imm, ⟨m, d, a, rfl, hm, hd, ha⟩, by simp [Instr.wf, Instr.regFields, hdv], rfl⟩
  · obtain ⟨d, a, b, rfl⟩ := List.length_eq_three.mp hlen
    obtain ⟨dst, ⟨hd, hdv⟩, src1, ⟨ha, hav⟩, src2, ⟨hb, hbv⟩, rfl⟩ := by
      simpa only [operands_dst, operands_src1, operands_src2, operands_nil] using hg
    exact ⟨.add dst src1 src2, ⟨m, d, a, b, rfl, hm, hd, ha, hb⟩, by simp [Instr.wf, Instr.regFields, hdv, hav, hbv],
      rfl⟩
  · obtain ⟨a, rfl⟩ := List.length_eq_one_iff.mp hlen
    obtain ⟨imm, ha, rfl⟩ := operands_imm hg
    exact ⟨.jumpIf imm, ⟨m, a, rfl, hm, ha⟩, rfl, rfl⟩
  · obtain ⟨a, rfl⟩ := List.length_eq_one_iff.mp hlen
    obtain ⟨imm, ha, rfl⟩ := operands_imm hg
    exact ⟨.jump imm, ⟨m, a, rfl, hm, ha⟩, rfl, rfl⟩
  · obtain rfl := List.length_eq_zero_iff.mp hlen
    obtain rfl := operands_nil.mp hg
    exact ⟨.terminate, ⟨m, rfl, hm⟩, rfl, rfl⟩
  · obtain ⟨d, a, rfl⟩ := List.length_eq_two.mp hlen
    obtain ⟨dst, ⟨hd, hdv⟩, src1, ⟨ha, hav⟩, rfl⟩ := by simpa only [operands_dst, operands_src1, operands_nil] using hg
    exact ⟨.cmp dst src1, ⟨m, d, a, rfl, hm, hd, ha⟩, by simp [Instr.wf, Instr.regFields, hdv, hav], rfl⟩
  · obtain ⟨d, rfl⟩ := List.length_eq_one_iff.mp hlen
    obtain ⟨dst, ⟨hd, hdv⟩, rfl⟩ := by simpa only [operands_dst, operands_nil] using hg
    exact ⟨.inc dst, ⟨m, d, rfl, hm, hd⟩, by simp [Instr.wf, Instr.regFields, hdv], rfl⟩
  · obtain ⟨d, a, rfl⟩ := List.length_eq_two.mp hlen
    obtain ⟨dst, ⟨hd, hdv⟩, hg⟩ := operands_dst.mp hg
    obtain ⟨imm, ha, rfl⟩ := operands_imm hg
    exact ⟨.move dst imm, ⟨m, d, a, rfl, hm, hd, ha⟩, by simp [Instr.wf, Instr.regFields, hdv], rfl⟩

/-! ## The words and their lines (R93) -/

/-- A line and the word that it is encoded to with every label known. -/
def Encodes (full : SymbolTable) (line : Text) (w : InstrWord) : Prop :=
  ∃ tokens, classify line = .instruction tokens ∧ instructionWord full tokens = .ok (w, none)

/-- Direct encoding gives one word for each instruction line, in order. -/
theorem forall₂_encodes {full : SymbolTable} {lines : List Text} {ws : List InstrWord}
    (h : directWords full lines = .ok ws) : List.Forall₂ (Encodes full) (lines.filter isInstructionLine) ws := by
  induction lines generalizing ws with
  | nil => cases h; exact .nil
  | cons line rest ih =>
    rw [List.filter_cons]
    cases hc : classify line with
    | blank =>
      simp only [directWords, hc] at h
      simpa [isInstructionLine, hc] using ih h
    | comment =>
      simp only [directWords, hc] at h
      simpa [isInstructionLine, hc] using ih h
    | label name =>
      simp only [directWords, hc] at h
      simpa [isInstructionLine, hc] using ih h
    | instruction tokens =>
      obtain ⟨w, ws', hw, hws, rfl⟩ := (directWords_instruction hc).mp h
      simpa [isInstructionLine, hc] using ⟨⟨tokens, hc, hw⟩, ih hws⟩

/-- Settles O52: an assembled text is encoded line by line (O53), and an encoded line spells its instruction. -/
theorem assembledSequenceFollowsInstructionLines : Obligations.AssembledSequenceFollowsInstructionLines := by
  unfold Obligations.AssembledSequenceFollowsInstructionLines
  intro lines ws h
  have hwords := forall₂_encodes ((twoPassAssemblyEqualsDirectEncoding lines ws).mp h).2
  refine ⟨hwords.length_eq.symm, hwords.imp fun line w => ?_⟩
  rintro ⟨tokens, hc, hw⟩
  obtain ⟨i, hspells, hwf, hword⟩ := spells_of_instructionWord hw
  exact ⟨tokens, i, hc, hspells, hwf, hword⟩

end Sys2Proof.Machine.Asm
end
